-- ==== Sys2Proof/Word.lean ====
section
/-! DEFINITION. The word types of CORE: every value is an unsigned bit pattern of a fixed width (00_scope R11, R12). -/

namespace Sys2Proof

/-- An instruction word, an address register, a stack entry: 16 bits (R9, R34, R35, R37, R106). -/
abbrev Word := BitVec 16

/-- A memory cell, a general register, a timer, an immediate NN: 8 bits (R9, R107). -/
abbrev Byte := BitVec 8

/-- A 4-bit field: the register numbers X and Y, the height N, the family (R14, R107). -/
abbrev Nibble := BitVec 4

/-- The 12-bit address field NNN (R14, R107). -/
abbrev Addr := BitVec 12

end Sys2Proof
end

