-- ==== Sys2Proof/Syntax.lean ====
section
/-! DEFINITION. The instructions: one constructor per row of spec/opcode_table.json (30_encoding R116, R119). Bits that the
decoder ignores (bits 11:8 of 00E0 and 00EE, bits 3:0 of 5XYn and 9XYn, Y of the shifts) are kept as operands, so that a
constructor and its operands stand for exactly one word and a fault record can hold that word (10_state R46). -/

namespace Sys2Proof

/-- An instruction of CORE with its operand fields (R107). -/
inductive Instr
  -- family 0x0 (R111)
  | cls (n : Nibble)
  | ret (n : Nibble)
  | sys (nnn : Addr)
  -- families 0x1 to 0x7 (R115)
  | jp (nnn : Addr)
  | call (nnn : Addr)
  | seImm (x : Nibble) (nn : Byte)
  | sneImm (x : Nibble) (nn : Byte)
  | seReg (x y n : Nibble)
  | ldImm (x : Nibble) (nn : Byte)
  | addImm (x : Nibble) (nn : Byte)
  -- family 0x8 (R112)
  | ldReg (x y : Nibble)
  | or (x y : Nibble)
  | and (x y : Nibble)
  | xor (x y : Nibble)
  | addReg (x y : Nibble)
  | sub (x y : Nibble)
  | shr (x y : Nibble)
  | subn (x y : Nibble)
  | shl (x y : Nibble)
  -- families 0x9 to 0xD (R115)
  | sneReg (x y n : Nibble)
  | ldI (nnn : Addr)
  | jpV0 (nnn : Addr)
  | rnd (x : Nibble) (nn : Byte)
  | drw (x y n : Nibble)
  -- family 0xE (R113)
  | skp (x : Nibble)
  | sknp (x : Nibble)
  -- family 0xF (R114)
  | ldVDt (x : Nibble)
  | ldK (x : Nibble)
  | ldDt (x : Nibble)
  | ldSt (x : Nibble)
  | addI (x : Nibble)
  | ldF (x : Nibble)
  | ldB (x : Nibble)
  | ldMemV (x : Nibble)
  | ldVMem (x : Nibble)
  -- the unassigned codes of R119, one constructor per table row
  | nop88 (x y : Nibble)
  | nop89 (x y : Nibble)
  | nop8A (x y : Nibble)
  | nop8B (x y : Nibble)
  | nop8C (x y : Nibble)
  | nop8D (x y : Nibble)
  | nop8F (x y : Nibble)
  | nopE (x : Nibble) (ss : Byte)
  | nopF (x : Nibble) (ss : Byte)
deriving DecidableEq, Repr

end Sys2Proof
end

