-- ==== Sys2Proof/WellFormed.lean ====
section
/-! DEFINITION. Which instruction terms stand for a word: a default row's operand must not be a value that another row of
its family claims (opcode_table.json, notes of SYS, EXSS and FXSS; 30_encoding R111, R113, R114). -/

namespace Sys2Proof

/-- The low bytes of family 0x0 that are not SYS (R111). -/
def claimedBy0 (b : Byte) : Bool := b = 0xE0 ∨ b = 0xEE

/-- The low bytes of family 0xE that are assigned (R113). -/
def claimedByE (b : Byte) : Bool := b = 0x9E ∨ b = 0xA1

/-- The low bytes of family 0xF that are assigned (R114). -/
def claimedByF (b : Byte) : Bool :=
  b = 0x07 ∨ b = 0x0A ∨ b = 0x15 ∨ b = 0x18 ∨ b = 0x1E ∨ b = 0x29 ∨ b = 0x33 ∨ b = 0x55 ∨ b = 0x65

/-- Whether the term is the decoding of some word: the three default rows exclude the low bytes of their neighbours,
every other constructor admits every operand. -/
def Instr.wf : Instr → Bool
  | .sys nnn    => !claimedBy0 (nnn.extractLsb' 0 8)
  | .nopE _ ss  => !claimedByE ss
  | .nopF _ ss  => !claimedByF ss
  | .cls _ | .ret _ | .jp _ | .call _ | .seImm _ _ | .sneImm _ _ | .seReg _ _ _ | .ldImm _ _ | .addImm _ _
  | .ldReg _ _ | .or _ _ | .and _ _ | .xor _ _ | .addReg _ _ | .sub _ _ | .shr _ _ | .subn _ _ | .shl _ _
  | .sneReg _ _ _ | .ldI _ | .jpV0 _ | .rnd _ _ | .drw _ _ _ | .skp _ | .sknp _ | .ldVDt _ | .ldK _ | .ldDt _
  | .ldSt _ | .addI _ | .ldF _ | .ldB _ | .ldMemV _ | .ldVMem _ | .nop88 _ _ | .nop89 _ _ | .nop8A _ _
  | .nop8B _ _ | .nop8C _ _ | .nop8D _ _ | .nop8F _ _ => true

end Sys2Proof
end

