-- ==== Sys2Proof/Decode.lean ====
section
/-! DEFINITION. The decoder (30_encoding R107, R110 to R118) and the encoder, written from the same patterns (R108, R116). -/

namespace Sys2Proof

/-! ## Fields of a word (R14, R107) -/

/-- `F = w[15:12]`. -/
def family (w : Word) : Nibble := w.extractLsb' 12 4
/-- `X = w[11:8]`. -/
def fieldX (w : Word) : Nibble := w.extractLsb' 8 4
/-- `Y = w[7:4]`. -/
def fieldY (w : Word) : Nibble := w.extractLsb' 4 4
/-- `N = w[3:0]`. -/
def fieldN (w : Word) : Nibble := w.extractLsb' 0 4
/-- `NN = w[7:0]`. -/
def fieldNN (w : Word) : Byte := w.extractLsb' 0 8
/-- `NNN = w[11:0]`. -/
def fieldNNN (w : Word) : Addr := w.extractLsb' 0 12

/-! ## The decoder -/

/-- Family 0x0, on the low byte (R111). -/
def decode0 (w : Word) : Instr :=
  match fieldNN w with
  | 0xE0#8 => .cls (fieldX w)
  | 0xEE#8 => .ret (fieldX w)
  | _      => .sys (fieldNNN w)

/-- Family 0x8, on the low nibble (R112, R119). The last arm is 0xF. -/
def decode8 (w : Word) : Instr :=
  let x := fieldX w
  let y := fieldY w
  match fieldN w with
  | 0x0#4 => .ldReg x y
  | 0x1#4 => .or x y
  | 0x2#4 => .and x y
  | 0x3#4 => .xor x y
  | 0x4#4 => .addReg x y
  | 0x5#4 => .sub x y
  | 0x6#4 => .shr x y
  | 0x7#4 => .subn x y
  | 0x8#4 => .nop88 x y
  | 0x9#4 => .nop89 x y
  | 0xA#4 => .nop8A x y
  | 0xB#4 => .nop8B x y
  | 0xC#4 => .nop8C x y
  | 0xD#4 => .nop8D x y
  | 0xE#4 => .shl x y
  | _     => .nop8F x y

/-- Family 0xE, on the low byte (R113, R119). -/
def decodeE (w : Word) : Instr :=
  match fieldNN w with
  | 0x9E#8 => .skp (fieldX w)
  | 0xA1#8 => .sknp (fieldX w)
  | ss     => .nopE (fieldX w) ss

/-- Family 0xF, on the low byte (R114, R119). -/
def decodeF (w : Word) : Instr :=
  let x := fieldX w
  match fieldNN w with
  | 0x07#8 => .ldVDt x
  | 0x0A#8 => .ldK x
  | 0x15#8 => .ldDt x
  | 0x18#8 => .ldSt x
  | 0x1E#8 => .addI x
  | 0x29#8 => .ldF x
  | 0x33#8 => .ldB x
  | 0x55#8 => .ldMemV x
  | 0x65#8 => .ldVMem x
  | ss     => .nopF x ss

/-- The whole decoder: total, every word selects one handler (R110, R115, R118). The last arm is family 0xF. -/
def decodeWord (w : Word) : Instr :=
  match family w with
  | 0x0#4 => decode0 w
  | 0x1#4 => .jp (fieldNNN w)
  | 0x2#4 => .call (fieldNNN w)
  | 0x3#4 => .seImm (fieldX w) (fieldNN w)
  | 0x4#4 => .sneImm (fieldX w) (fieldNN w)
  | 0x5#4 => .seReg (fieldX w) (fieldY w) (fieldN w)
  | 0x6#4 => .ldImm (fieldX w) (fieldNN w)
  | 0x7#4 => .addImm (fieldX w) (fieldNN w)
  | 0x8#4 => decode8 w
  | 0x9#4 => .sneReg (fieldX w) (fieldY w) (fieldN w)
  | 0xA#4 => .ldI (fieldNNN w)
  | 0xB#4 => .jpV0 (fieldNNN w)
  | 0xC#4 => .rnd (fieldX w) (fieldNN w)
  | 0xD#4 => .drw (fieldX w) (fieldY w) (fieldN w)
  | 0xE#4 => decodeE w
  | _     => decodeF w

/-- Two bytes as one word, the byte at the lower address in bits 15:8 (20_memory R72). -/
def wordOfBytes (hi lo : Byte) : Word := hi ++ lo

/-- The byte of a word at the lower address (R72). -/
def highByte (w : Word) : Byte := w.extractLsb' 8 8

/-- The byte of a word at the higher address (R72). -/
def lowByte (w : Word) : Byte := w.extractLsb' 0 8

/-- Why a byte sequence gives no instruction. -/
inductive DecodeError
  /-- Fewer than two bytes: every instruction is one 16-bit word (R106, R120). No word is undecodable (R118). -/
  | truncated
deriving DecidableEq, Repr

/-- The decoder on bytes as they lie in memory: the instruction and the bytes after it. -/
def decodeBytes : List Byte → Except DecodeError (Instr × List Byte)
  | hi :: lo :: rest => .ok (decodeWord (wordOfBytes hi lo), rest)
  | [_] | []         => .error .truncated

/-- What the decoder reads from an instruction whose low `nbits` bits are `w`, the bits above them zero, laid out in
memory order. Every instruction has one word, so the table's bit 0 is bit 0 of that word. -/
def decodeTableWord (nbits w : Nat) : Option Instr :=
  let word : Word := BitVec.ofNat 16 (w % 2 ^ nbits)
  match decodeBytes [highByte word, lowByte word] with
  | .ok (i, _)  => some i
  | .error _    => none

/-! ## The encoder (R108, R116, R119) -/

/-- Layout `A`: family and NNN. -/
def formA (f : Nibble) (nnn : Addr) : Word := f ++ nnn
/-- Layouts `XNN`, `XS` and `Z`: family, X (or the ignored bits 11:8), low byte. -/
def formXNN (f x : Nibble) (nn : Byte) : Word := f ++ x ++ nn
/-- Layouts `XYS`, `XYI` and `XYN`: family, X, Y, low nibble. -/
def formXYN (f x y n : Nibble) : Word := f ++ x ++ y ++ n

/-- The word of an instruction. -/
def encode : Instr → Word
  | .cls n        => formXNN 0x0 n 0xE0
  | .ret n        => formXNN 0x0 n 0xEE
  | .sys nnn      => formA 0x0 nnn
  | .jp nnn       => formA 0x1 nnn
  | .call nnn     => formA 0x2 nnn
  | .seImm x nn   => formXNN 0x3 x nn
  | .sneImm x nn  => formXNN 0x4 x nn
  | .seReg x y n  => formXYN 0x5 x y n
  | .ldImm x nn   => formXNN 0x6 x nn
  | .addImm x nn  => formXNN 0x7 x nn
  | .ldReg x y    => formXYN 0x8 x y 0x0
  | .or x y       => formXYN 0x8 x y 0x1
  | .and x y      => formXYN 0x8 x y 0x2
  | .xor x y      => formXYN 0x8 x y 0x3
  | .addReg x y   => formXYN 0x8 x y 0x4
  | .sub x y      => formXYN 0x8 x y 0x5
  | .shr x y      => formXYN 0x8 x y 0x6
  | .subn x y     => formXYN 0x8 x y 0x7
  | .shl x y      => formXYN 0x8 x y 0xE
  | .sneReg x y n => formXYN 0x9 x y n
  | .ldI nnn      => formA 0xA nnn
  | .jpV0 nnn     => formA 0xB nnn
  | .rnd x nn     => formXNN 0xC x nn
  | .drw x y n    => formXYN 0xD x y n
  | .skp x        => formXNN 0xE x 0x9E
  | .sknp x       => formXNN 0xE x 0xA1
  | .ldVDt x      => formXNN 0xF x 0x07
  | .ldK x        => formXNN 0xF x 0x0A
  | .ldDt x       => formXNN 0xF x 0x15
  | .ldSt x       => formXNN 0xF x 0x18
  | .addI x       => formXNN 0xF x 0x1E
  | .ldF x        => formXNN 0xF x 0x29
  | .ldB x        => formXNN 0xF x 0x33
  | .ldMemV x     => formXNN 0xF x 0x55
  | .ldVMem x     => formXNN 0xF x 0x65
  | .nop88 x y    => formXYN 0x8 x y 0x8
  | .nop89 x y    => formXYN 0x8 x y 0x9
  | .nop8A x y    => formXYN 0x8 x y 0xA
  | .nop8B x y    => formXYN 0x8 x y 0xB
  | .nop8C x y    => formXYN 0x8 x y 0xC
  | .nop8D x y    => formXYN 0x8 x y 0xD
  | .nop8F x y    => formXYN 0x8 x y 0xF
  | .nopE x ss    => formXNN 0xE x ss
  | .nopF x ss    => formXNN 0xF x ss

/-! ## The rows of spec/opcode_table.json -/

/-- A row's pattern: the word, under the mask, equals the match value. -/
structure TableRow where
  mask    : Word
  pattern : Word
deriving DecidableEq, Repr

/-- Whether a word fits a row. -/
def TableRow.fits (r : TableRow) (w : Word) : Bool := w &&& r.mask = r.pattern

/-- The row of spec/opcode_table.json each constructor stands for, copied from the table's match and mask. -/
def tableRow : Instr → TableRow
  | .cls _        => ⟨0xF0FF, 0x00E0⟩
  | .ret _        => ⟨0xF0FF, 0x00EE⟩
  | .sys _        => ⟨0xF000, 0x0000⟩
  | .jp _         => ⟨0xF000, 0x1000⟩
  | .call _       => ⟨0xF000, 0x2000⟩
  | .seImm _ _    => ⟨0xF000, 0x3000⟩
  | .sneImm _ _   => ⟨0xF000, 0x4000⟩
  | .seReg _ _ _  => ⟨0xF000, 0x5000⟩
  | .ldImm _ _    => ⟨0xF000, 0x6000⟩
  | .addImm _ _   => ⟨0xF000, 0x7000⟩
  | .ldReg _ _    => ⟨0xF00F, 0x8000⟩
  | .or _ _       => ⟨0xF00F, 0x8001⟩
  | .and _ _      => ⟨0xF00F, 0x8002⟩
  | .xor _ _      => ⟨0xF00F, 0x8003⟩
  | .addReg _ _   => ⟨0xF00F, 0x8004⟩
  | .sub _ _      => ⟨0xF00F, 0x8005⟩
  | .shr _ _      => ⟨0xF00F, 0x8006⟩
  | .subn _ _     => ⟨0xF00F, 0x8007⟩
  | .shl _ _      => ⟨0xF00F, 0x800E⟩
  | .sneReg _ _ _ => ⟨0xF000, 0x9000⟩
  | .ldI _        => ⟨0xF000, 0xA000⟩
  | .jpV0 _       => ⟨0xF000, 0xB000⟩
  | .rnd _ _      => ⟨0xF000, 0xC000⟩
  | .drw _ _ _    => ⟨0xF000, 0xD000⟩
  | .skp _        => ⟨0xF0FF, 0xE09E⟩
  | .sknp _       => ⟨0xF0FF, 0xE0A1⟩
  | .ldVDt _      => ⟨0xF0FF, 0xF007⟩
  | .ldK _        => ⟨0xF0FF, 0xF00A⟩
  | .ldDt _       => ⟨0xF0FF, 0xF015⟩
  | .ldSt _       => ⟨0xF0FF, 0xF018⟩
  | .addI _       => ⟨0xF0FF, 0xF01E⟩
  | .ldF _        => ⟨0xF0FF, 0xF029⟩
  | .ldB _        => ⟨0xF0FF, 0xF033⟩
  | .ldMemV _     => ⟨0xF0FF, 0xF055⟩
  | .ldVMem _     => ⟨0xF0FF, 0xF065⟩
  | .nop88 _ _    => ⟨0xF00F, 0x8008⟩
  | .nop89 _ _    => ⟨0xF00F, 0x8009⟩
  | .nop8A _ _    => ⟨0xF00F, 0x800A⟩
  | .nop8B _ _    => ⟨0xF00F, 0x800B⟩
  | .nop8C _ _    => ⟨0xF00F, 0x800C⟩
  | .nop8D _ _    => ⟨0xF00F, 0x800D⟩
  | .nop8F _ _    => ⟨0xF00F, 0x800F⟩
  | .nopE _ _     => ⟨0xF000, 0xE000⟩
  | .nopF _ _     => ⟨0xF000, 0xF000⟩

end Sys2Proof
end

