-- ==== Sys2Proof/Config.lean ====
section
/-! DEFINITION. What is fixed for one machine: the sizes of 00_scope R9, the parameters of R10, and the free value of the
random source (R18). -/

namespace Sys2Proof.Config

/-- `MEM_SIZE` (R9): addresses 0x000 to 0xFFF. -/
abbrev memSize : Nat := 4096

/-- `FONT_BASE` (R9): the address of glyph 0. -/
abbrev fontBase : Nat := 0x50

/-- The first address after the font: `FONT_BASE + FONT_LEN` (R9). -/
abbrev fontEnd : Nat := 0xA0

/-- `PROG_BASE` (R9): where `load_program` puts byte 0 of an image. -/
abbrev progBase : Nat := 0x200

/-- `PROG_MAX` (R9): the longest image, 4096 - 0x200 bytes. -/
abbrev progMax : Nat := 3584

/-- The 80 font bytes (`FONT`, R10, R76). -/
abbrev Font := Vector Byte 80

/-- `SPRITE_EDGE` (R10, R262): what a set sprite bit past the right or bottom edge does. -/
inductive SpriteEdge
  /-- Literal reproduction: the linear index is used, past the last pixel is a fault. The spec's default. -/
  | literal
  /-- A bit outside the screen is skipped. -/
  | clip
  /-- Both coordinates wrap. -/
  | wrap
deriving DecidableEq, Repr

/-- `FONT_WRITE` (R10, R78): what a store into 0x50 to 0x9F does. -/
inductive FontWrite
  /-- It raises FONT_WRITE and writes nothing. The spec's default. -/
  | fault
  /-- It lands like any other store. -/
  | allow
deriving DecidableEq, Repr

/-- The two parameters of R10 that an instruction consults. DESIGN CHOICE (log entry 2), safe: they stand in `State`,
since `exec` takes no further argument, and no step changes them. -/
structure Params where
  spriteEdge : SpriteEdge
  fontWrite  : FontWrite
deriving DecidableEq, Repr

/-- The parameters of R10 that `initialize` takes: the above, `FONT` and `ENTRY_PC`. -/
structure Setup where
  params  : Params
  font    : Font
  entryPc : Word
deriving DecidableEq, Repr

/-- The free value of the random source (R18, R194; 93 I8, I9; 92 D20): the byte that draw number `drawn` of a source
seeded with `seed` gives. It has no body: nothing is provable of it, so a claim holds for every source. DESIGN CHOICE
(log entry 1), safe for one machine. -/
opaque randomByte (seed drawn : Nat) : Byte

end Sys2Proof.Config
end

