-- ==== Sys2Proof/Machine/State.lean ====
section
/-! DEFINITION. The machine state (10_state R30, R49), the fault record (R46, 60_exceptions R331), the reasons an operation
can stop, and the state after reset. -/

namespace Sys2Proof.Machine

open Sys2Proof.Config

/-- The causes of a cycle's fault (60_exceptions R331). -/
inductive FaultCause
  | pcOutOfBounds
  | stackOverflow
  | stackUnderflow
  | invalidDigit
  | memoryBounds
  | displayBounds
  | keyIndex
  | fontWrite
deriving DecidableEq, Repr

/-- The fault record (10_state R46). `opcode` is none when the fetch itself faulted. -/
structure FaultRecord where
  cause  : FaultCause
  pc     : Word
  opcode : Option Word
  info   : Nat
deriving DecidableEq, Repr

/-- The random source's hidden state `rng` (10_state R45): which free byte the next draw takes. The seed is unspecified
(R49). DESIGN CHOICE (log entry 1): a pair of numbers that only names a byte of `Config.randomByte`. -/
structure Rng where
  seed  : Nat
  drawn : Nat
deriving DecidableEq, Repr

/-- One row of the screen, leftmost pixel first; true is lit. -/
abbrev PixelRow := Vector Bool 64

/-- The frame buffer `disp`: 32 rows of 64 pixels, row-major, so pixel p is row p / 64, column p mod 64 (R43). -/
abbrev Frame := Vector PixelRow 32

/-- The 4096 bytes (R44) as the list of the cells that differ from the content after `initialize` with the default font:
addresses strictly rising, no cell equal to that content (`Memory.wf`, Machine/Memory.lean). -/
abbrev Memory := List Host.Cell

/-- The machine state (R30). -/
structure State where
  /-- `mem` (R44). -/
  mem    : Memory
  /-- `V[0]` to `V[15]`; `V[15]` is VF (R31, R32). -/
  v      : Vector Byte 16
  /-- `I` (R34). -/
  index  : Word
  /-- `pc` (R35). -/
  pc     : Word
  /-- `stack[0]` to `stack[15]` (R37). -/
  stack  : Vector Word 16
  /-- `sp`, the count of entries in use, 0 to 16 (R37). -/
  sp     : Fin 17
  /-- `DT` (R40). -/
  dt     : Byte
  /-- `ST` (R41). -/
  st     : Byte
  /-- `key[0]` to `key[15]`; true is pressed (R42). -/
  key    : Vector Bool 16
  /-- `disp` (R43). -/
  disp   : Frame
  /-- `rng` (R45). -/
  rng    : Rng
  /-- `fault`: none, or the sticky record (R46). -/
  fault  : Option FaultRecord
  /-- The machine's parameters (00_scope R10), the model's own field; no step changes it (log entry 2). -/
  params : Params
deriving DecidableEq, Repr

/-- Reasons a model operation stops with no next state. No instruction and no cycle does: CORE's own faults are recorded
in `State.fault` and the cycle answers a next state (60_exceptions R334). -/
inductive Fault
  /-- `load_program` was given an image of `len` bytes, more than 3584 (R332, R361; code 9, LOAD_FAULT). Raised by
  `loadProgram` only. Safe: the spec's own outcome, the state is the caller's unchanged one. -/
  | loadFault (len : Nat)
deriving DecidableEq, Repr

/-- Reasons an operation has no meaning. -/
inductive Refusal
  /-- An instruction with no meaning yet. Raised by no arm: every instruction has its meaning. Safe. -/
  | notModelled (mnemonic : String)
  /-- A host operation other than `initialize` before the first `initialize` (60_exceptions R365; 93 I9: refuse). Raised by
  `Session.apply`. Safe. -/
  | beforeInit
  /-- `load_program` after a successful load or after a cycle (R361; 92 D26; 93 I17: refuse). Raised by `Session.apply`.
  Safe. -/
  | loadOutOfPhase
deriving DecidableEq, Repr

/-- The screen with every pixel unlit. -/
def Frame.blank : Frame := Vector.replicate 32 (Vector.replicate 64 false)

/-- The state right after `initialize` with the spec's default parameters (R49, R370; ENTRY_PC = 0x200, R371). Memory
lists nothing: every byte is the initial content, the font at 0x50 and 0 elsewhere. The `rng` value is a DESIGN CHOICE
(log entry 1) on which nothing rests. -/
def State.reset : State where
  mem    := []
  v      := Vector.replicate 16 0
  index  := 0
  pc     := 0x200
  stack  := Vector.replicate 16 0
  sp     := 0
  dt     := 0
  st     := 0
  key    := Vector.replicate 16 false
  disp   := Frame.blank
  rng    := ⟨0, 0⟩
  fault  := none
  params := ⟨.literal, .fault⟩

end Sys2Proof.Machine
end

