-- ==== Sys2Proof/Machine/Memory.lean ====
section
/-! DEFINITION. The 4096 bytes: what they hold after `initialize`, reading and writing one byte, and runs of bytes
(20_memory R70 to R82). Bounds and font protection are checked before any access (Machine/Operands.lean, R231). -/

namespace Sys2Proof.Machine

open Sys2Proof.Config

/-- The default `FONT`, one glyph a line, digits 0 to F (20_memory R76). PRESUMED by the spec itself from general knowledge
of CHIP-8 (log entry 3), unsafe for claims about glyph pixels. -/
def defaultFont : Font := #v[
  0xF0, 0x90, 0x90, 0x90, 0xF0,
  0x20, 0x60, 0x20, 0x20, 0x70,
  0xF0, 0x10, 0xF0, 0x80, 0xF0,
  0xF0, 0x10, 0xF0, 0x10, 0xF0,
  0x90, 0x90, 0xF0, 0x10, 0x10,
  0xF0, 0x80, 0xF0, 0x10, 0xF0,
  0xF0, 0x80, 0xF0, 0x90, 0xF0,
  0xF0, 0x10, 0x20, 0x40, 0x40,
  0xF0, 0x90, 0xF0, 0x90, 0xF0,
  0xF0, 0x90, 0xF0, 0x10, 0xF0,
  0xF0, 0x90, 0xF0, 0x90, 0x90,
  0xE0, 0x90, 0xE0, 0x90, 0xE0,
  0xF0, 0x80, 0x80, 0x80, 0xF0,
  0xE0, 0x90, 0x90, 0x90, 0xE0,
  0xF0, 0x80, 0xF0, 0x80, 0xF0,
  0xF0, 0x80, 0xF0, 0x80, 0x80]

/-- What an unlisted address reads as: the content after `initialize` with the default font (R49, R75). -/
def Memory.initial (a : Nat) : Byte :=
  if h : fontBase ≤ a ∧ a < fontEnd then defaultFont[a - fontBase]'(by simp only [fontBase, fontEnd] at h ⊢; omega) else 0

/-- The byte at address `a` (R82: a read changes nothing). -/
def Memory.read (m : Memory) (a : Nat) : Byte :=
  match m with
  | []           => Memory.initial a
  | (b, w) :: m' => if a = b then w else Memory.read m' a

/-- Take the cell of `a` out, if it is listed. -/
def Memory.erase (m : Memory) (a : Nat) : Memory :=
  match m with
  | []           => []
  | (b, w) :: m' => if a = b then m' else (b, w) :: Memory.erase m' a

/-- List the cell `(a, x)` in its place, in place of an older cell of `a`. -/
def Memory.insert (m : Memory) (a : Nat) (x : Byte) : Memory :=
  match m with
  | []           => [(a, x)]
  | (b, w) :: m' =>
    if a < b then (a, x) :: (b, w) :: m'
    else if a = b then (a, x) :: m'
    else (b, w) :: Memory.insert m' a x

/-- Write byte `x` at address `a`, in canonical form: writing the initial content takes the cell out. Outside the 4096
bytes there is no cell (R70): the checks of R231 let no instruction come here with such an address. -/
def Memory.write (m : Memory) (a : Nat) (x : Byte) : Memory :=
  if a < memSize then
    if x = Memory.initial a then Memory.erase m a else Memory.insert m a x
  else m

/-- Write consecutive bytes from address `a` on, in increasing order. -/
def Memory.writeBytes (m : Memory) (a : Nat) : List Byte → Memory
  | []      => m
  | x :: xs => Memory.writeBytes (Memory.write m a x) (a + 1) xs

/-- The `n` bytes from address `a` on. -/
def Memory.readBytes (m : Memory) (a n : Nat) : List Byte :=
  (List.range n).map fun k => Memory.read m (a + k)

/-- The canonical form above address `lo`: addresses from `lo` on, strictly rising, inside the 4096 bytes, and no cell
equal to the initial content. -/
def Memory.wfFrom (lo : Nat) (m : Memory) : Bool :=
  match m with
  | []           => true
  | (a, x) :: m' => lo ≤ a && a < memSize && x != Memory.initial a && Memory.wfFrom (a + 1) m'

/-- The canonical form of a memory. -/
def Memory.wf (m : Memory) : Bool := Memory.wfFrom 0 m

end Sys2Proof.Machine
end

