-- ==== Sys2Proof/Machine/Ops.lean ====
section
/-! DEFINITION. The named operations every meaning is made of: registers, pc, stack, screen, keys, taking a fault, the
shape of one instruction's execution, and the parts of a cycle around it (fetch, tick). -/

namespace Sys2Proof.Machine

open Sys2Proof.Config

/-! ## General registers and pc -/

/-- `V[x]` (10_state R31). -/
def State.reg (s : State) (x : Nibble) : Byte := s.v[x.toNat]'x.isLt

/-- `V[x] <- b` (R31; VF is written like any other, R32). -/
def State.setReg (s : State) (x : Nibble) (b : Byte) : State := { s with v := s.v.set x.toNat b x.isLt }

/-- The number of VF (00_scope R9, FLAG_REG). -/
abbrev vf : Nibble := 15

/-- `pc <- target` (R35). -/
def State.setPc (s : State) (t : Word) : State := { s with pc := t }

/-- `pc <- pc + 2` before execution (30_encoding R102). -/
def State.advance (s : State) : State := { s with pc := s.pc + 2 }

/-- The skip: a further `pc <- pc + 2` when the condition holds (40_control_flow R151). -/
def State.skipIf (s : State) (c : Bool) : State := if c then { s with pc := s.pc + 2 } else s

/-- `I <- a` (R34). -/
def State.setIndex (s : State) (a : Word) : State := { s with index := a }

/-! ## Faults (60_exceptions) -/

/-- `Fault(cause, info)` as a rule raises it (00_scope R16). -/
structure Raised where
  cause : FaultCause
  info  : Nat
deriving DecidableEq, Repr

/-- Fault entry (R334): the record is written, with the address of the instruction (`s` is the state at the start of the
cycle) and its word, or none at fetch; nothing else changes. -/
def State.takeFault (s : State) (r : Raised) (opcode : Option Word) : State :=
  { s with fault := some { cause := r.cause, pc := s.pc, opcode := opcode, info := r.info } }

/-- The numeric cause codes (R331). -/
def FaultCause.code : FaultCause → Nat
  | .pcOutOfBounds  => 1
  | .stackOverflow  => 2
  | .stackUnderflow => 3
  | .invalidDigit   => 4
  | .memoryBounds   => 5
  | .displayBounds  => 6
  | .keyIndex       => 7
  | .fontWrite      => 8

/-- The code of LOAD_FAULT (R332). -/
def loadFaultCode : Nat := 9

/-- One instruction from the start-of-cycle state `s`: its handler runs with pc advanced (R102, R103); if it raises a
fault, nothing of it is committed but the record, which holds the instruction's word (R105, R334). -/
def execute (i : Instr) (s : State) (handler : State → Except Raised State) : Host.Outcome State Fault Refusal :=
  match handler s.advance with
  | .ok t    => .next t
  | .error r => .next (s.takeFault r (some (encode i)))

/-- One instruction whose rule raises no fault. -/
def complete (s : State) (handler : State → State) : Host.Outcome State Fault Refusal := .next (handler s.advance)

/-! ## The call stack (10_state R37) -/

/-- Push: store, then increment; STACK_OVERFLOW when 16 entries are in use. -/
def State.push (s : State) (a : Word) : Except Raised State :=
  if h : s.sp.val < 16 then
    .ok { s with stack := s.stack.set s.sp.val a h, sp := ⟨s.sp.val + 1, by omega⟩ }
  else .error ⟨.stackOverflow, 16⟩

/-- Pop into pc: decrement, then load; STACK_UNDERFLOW when no entry is in use. The entry keeps its value. -/
def State.popPc (s : State) : Except Raised State :=
  if h : s.sp.val = 0 then .error ⟨.stackUnderflow, 0⟩
  else .ok { s with pc := s.stack[s.sp.val - 1]'(by omega), sp := ⟨s.sp.val - 1, by omega⟩ }

/-! ## The screen (10_state R43) and the keys (R42) -/

/-- Whether pixel `p` is lit: row p / 64, column p mod 64. There is no pixel past 2047. -/
def Frame.lit (d : Frame) (p : Nat) : Bool :=
  if h : p < 2048 then (d[p / 64]'(by omega))[p % 64]'(by omega) else false

/-- Flip pixel `p` (43_draw R263). -/
def Frame.toggle (d : Frame) (p : Nat) : Frame :=
  if h : p < 2048 then
    d.set (p / 64) ((d[p / 64]'(by omega)).set (p % 64) (!Frame.lit d p) (by omega)) (by omega)
  else d

/-- `disp <- d`. -/
def State.setDisp (s : State) (d : Frame) : State := { s with disp := d }

/-- Whether key `k` is pressed; there is no key past 15. -/
def State.pressed (s : State) (k : Nat) : Bool := if h : k < 16 then s.key[k] else false

/-- The least pressed key, if any (44_input R292). -/
def State.leastKey (s : State) : Option Nat := (List.range 16).find? fun k => s.pressed k

/-! ## Timers (45_timers) -/

/-- `DT <- b` (R311). -/
def State.setDt (s : State) (b : Byte) : State := { s with dt := b }

/-- `ST <- b` (R312). -/
def State.setSt (s : State) (b : Byte) : State := { s with st := b }

/-- One step of a countdown, saturating at 0 (R314). -/
def countDown (t : Byte) : Byte := if t = 0 then 0 else t - 1

/-- The timer tick (R315). -/
def State.tick (s : State) : State := { s with dt := countDown s.dt, st := countDown s.st }

/-! ## The random source (00_scope R18) -/

/-- The byte `Random()` gives in this state: a free value. -/
def State.drawByte (s : State) : Byte := randomByte s.rng.seed s.rng.drawn

/-- The source after a draw: the next draw is a fresh one. -/
def State.afterDraw (s : State) : State := { s with rng := { s.rng with drawn := s.rng.drawn + 1 } }

/-! ## The cycle around the instruction (30_encoding R100 to R105) -/

/-- The word at `pc`, big-endian; none when `pc > 0xFFE` (R101). -/
def State.fetch (s : State) : Option Word :=
  if s.pc.toNat > 0xFFE then none
  else some (wordOfBytes (Memory.read s.mem s.pc.toNat) (Memory.read s.mem (s.pc.toNat + 1)))

/-- The end of a cycle: the tick runs when the instruction completed, and does not when it faulted (R104). It is applied
to the result of a cycle that began with no fault recorded. -/
def endCycle : Host.Outcome State Fault Refusal → Host.Outcome State Fault Refusal
  | .next t    => .next (if t.fault = none then t.tick else t)
  | .fault f   => .fault f
  | .refused r => .refused r

end Sys2Proof.Machine
end

