-- ==== Sys2Proof/Machine/Flags.lean ====
section
/-! DEFINITION. The flag computations (10_state R38) and the write order of a flag and a result (41_register_alu R182). -/

namespace Sys2Proof.Machine

/-- A flag as the byte VF holds. -/
def flagByte (b : Bool) : Byte := if b then 1 else 0

/-- 8XY4: carry, the exact sum passes 255 (R189). -/
def carryFlag (a b : Byte) : Byte := flagByte (a.toNat + b.toNat > 255)

/-- 8XY5 and, with the operands swapped, 8XY7: "no borrow occurred", strictly greater (R190, R191). -/
def noBorrowFlag (a b : Byte) : Byte := flagByte (a.toNat > b.toNat)

/-- 8XY6: the bit shifted out on the right (R192). -/
def shiftedOutRight (a : Byte) : Byte := flagByte (a.getLsbD 0)

/-- 8XYE: the bit shifted out on the left (R193). -/
def shiftedOutLeft (a : Byte) : Byte := flagByte (a.getLsbD 7)

/-- VF first, then V[X]: with X = 15 the result stays (R182). -/
def State.setFlagThenReg (s : State) (x : Nibble) (f r : Byte) : State := (s.setReg vf f).setReg x r

end Sys2Proof.Machine
end

