-- ==== Sys2Proof/Machine/Alu.lean ====
section
/-! DEFINITION. Register and arithmetic instructions (41_register_alu). -/

namespace Sys2Proof.Machine

/-- LD Vx, NN (R183). -/
def execLdImm (x : Nibble) (nn : Byte) (s : State) : Host.Outcome State Fault Refusal :=
  complete s fun s => s.setReg x nn

/-- ADD Vx, NN, no flag (R184). -/
def execAddImm (x : Nibble) (nn : Byte) (s : State) : Host.Outcome State Fault Refusal :=
  complete s fun s => s.setReg x (s.reg x + nn)

/-- LD Vx, Vy (R185). -/
def execLdReg (x y : Nibble) (s : State) : Host.Outcome State Fault Refusal :=
  complete s fun s => s.setReg x (s.reg y)

/-- OR Vx, Vy; VF is kept (R186). -/
def execOr (x y : Nibble) (s : State) : Host.Outcome State Fault Refusal :=
  complete s fun s => s.setReg x (s.reg x ||| s.reg y)

/-- AND Vx, Vy; VF is kept (R187). -/
def execAnd (x y : Nibble) (s : State) : Host.Outcome State Fault Refusal :=
  complete s fun s => s.setReg x (s.reg x &&& s.reg y)

/-- XOR Vx, Vy; VF is kept (R188). -/
def execXor (x y : Nibble) (s : State) : Host.Outcome State Fault Refusal :=
  complete s fun s => s.setReg x (s.reg x ^^^ s.reg y)

/-- ADD Vx, Vy: VF is the carry (R189). -/
def execAddReg (x y : Nibble) (s : State) : Host.Outcome State Fault Refusal :=
  complete s fun s => s.setFlagThenReg x (carryFlag (s.reg x) (s.reg y)) (s.reg x + s.reg y)

/-- SUB Vx, Vy: VF is 1 iff vx > vy (R190). -/
def execSub (x y : Nibble) (s : State) : Host.Outcome State Fault Refusal :=
  complete s fun s => s.setFlagThenReg x (noBorrowFlag (s.reg x) (s.reg y)) (s.reg x - s.reg y)

/-- SHR Vx: logical, of Vx itself; Y is not read (R192). -/
def execShr (x _ : Nibble) (s : State) : Host.Outcome State Fault Refusal :=
  complete s fun s => s.setFlagThenReg x (shiftedOutRight (s.reg x)) (s.reg x >>> 1)

/-- SUBN Vx, Vy: VF is 1 iff vy > vx (R191). -/
def execSubn (x y : Nibble) (s : State) : Host.Outcome State Fault Refusal :=
  complete s fun s => s.setFlagThenReg x (noBorrowFlag (s.reg y) (s.reg x)) (s.reg y - s.reg x)

/-- SHL Vx: of Vx itself; Y is not read (R193). -/
def execShl (x _ : Nibble) (s : State) : Host.Outcome State Fault Refusal :=
  complete s fun s => s.setFlagThenReg x (shiftedOutLeft (s.reg x)) (s.reg x <<< 1)

/-- RND Vx, NN: a fresh free byte, masked with NN (R194). -/
def execRnd (x : Nibble) (nn : Byte) (s : State) : Host.Outcome State Fault Refusal :=
  complete s fun s => s.afterDraw.setReg x (s.drawByte &&& nn)

end Sys2Proof.Machine
end

