-- ==== Sys2Proof/Machine/Operands.lean ====
section
/-! DEFINITION. Operand forms: zero-extended immediates, bytes addressed by I plus an offset with the checks made before
any access, and the decimal digits (30_encoding R109, 42_memory_index R230, R231, R235). -/

namespace Sys2Proof.Machine

open Sys2Proof.Config

/-- `zext_16(NNN)` (R109). -/
def zextAddr (nnn : Addr) : Word := nnn.setWidth 16

/-- `zext_16(b)` of a byte. -/
def zextByte (b : Byte) : Word := b.setWidth 16

/-- The addresses `i0 + k`, k < n, in increasing order: unbounded numbers, no wrap (20_memory R80). -/
def operandAddrs (i0 n : Nat) : List Nat := (List.range n).map fun k => i0 + k

/-- Whether an address lies in the font (R78). -/
def inFont (a : Nat) : Bool := fontBase ≤ a ∧ a < fontEnd

/-- The bounds check of R231: the first address above 0xFFF. -/
def checkRead (i0 n : Nat) : Option Raised :=
  match (operandAddrs i0 n).find? fun a => a > 0xFFF with
  | some a => some ⟨.memoryBounds, a⟩
  | none   => none

/-- The font check of R231, made under `FONT_WRITE = Fault` only (R78). -/
def checkFont (fw : FontWrite) (i0 n : Nat) : Option Raised :=
  match fw with
  | .allow => none
  | .fault =>
    match (operandAddrs i0 n).find? inFont with
    | some a => some ⟨.fontWrite, a⟩
    | none   => none

/-- Both checks of a storing instruction, bounds first (R231, R333). -/
def checkWrite (fw : FontWrite) (i0 n : Nat) : Option Raised :=
  match checkRead i0 n with
  | some r => some r
  | none   => checkFont fw i0 n

/-- Check, then store the bytes at I, I + 1, … (R236, R237). -/
def State.storeAtIndex (s : State) (bs : List Byte) : Except Raised State :=
  match checkWrite s.params.fontWrite s.index.toNat bs.length with
  | some r => .error r
  | none   => .ok { s with mem := Memory.writeBytes s.mem s.index.toNat bs }

/-- The general registers with `V[0]` to `V[x]` loaded from `m` at `a` on, the others kept (R238). -/
def loadedRegs (v : Vector Byte 16) (m : Memory) (a : Nat) (x : Nibble) : Vector Byte 16 :=
  Vector.ofFn fun k : Fin 16 => if k.val ≤ x.toNat then Memory.read m (a + k.val) else v[k]

/-- Check, then load `V[0]` to `V[x]` from I on (R238). -/
def State.loadFromIndex (s : State) (x : Nibble) : Except Raised State :=
  match checkRead s.index.toNat (x.toNat + 1) with
  | some r => .error r
  | none   => .ok { s with v := loadedRegs s.v s.mem s.index.toNat x }

/-- `V[0]` to `V[x]` in order (R237). -/
def State.regsTo (s : State) (x : Nibble) : List Byte := s.v.toList.take (x.toNat + 1)

/-- The hundreds, tens and ones digit, most significant first (R235). -/
def bcdDigits (b : Byte) : List Byte :=
  [BitVec.ofNat 8 (b.toNat / 100), BitVec.ofNat 8 (b.toNat / 10 % 10), BitVec.ofNat 8 (b.toNat % 10)]

end Sys2Proof.Machine
end

