-- ==== Sys2Proof/Machine/Control.lean ====
section
/-! DEFINITION. Control-flow instructions (40_control_flow). -/

namespace Sys2Proof.Machine

/-- CLS (R141). -/
def execCls (_ : Nibble) (s : State) : Host.Outcome State Fault Refusal :=
  complete s fun s => s.setDisp Frame.blank

/-- RET (R142). -/
def execRet (n : Nibble) (s : State) : Host.Outcome State Fault Refusal :=
  execute (.ret n) s fun s => s.popPc

/-- SYS NNN, a no-op (R143). -/
def execSys (_ : Addr) (s : State) : Host.Outcome State Fault Refusal :=
  complete s fun s => s

/-- JP NNN (R144). -/
def execJp (nnn : Addr) (s : State) : Host.Outcome State Fault Refusal :=
  complete s fun s => s.setPc (zextAddr nnn)

/-- CALL NNN: the pushed pc is already past the call (R145). -/
def execCall (nnn : Addr) (s : State) : Host.Outcome State Fault Refusal :=
  execute (.call nnn) s fun s =>
    match s.push s.pc with
    | .ok t    => .ok (t.setPc (zextAddr nnn))
    | .error r => .error r

/-- SE Vx, NN (R147). -/
def execSeImm (x : Nibble) (nn : Byte) (s : State) : Host.Outcome State Fault Refusal :=
  complete s fun s => s.skipIf (s.reg x = nn)

/-- SNE Vx, NN (R148). -/
def execSneImm (x : Nibble) (nn : Byte) (s : State) : Host.Outcome State Fault Refusal :=
  complete s fun s => s.skipIf (s.reg x ≠ nn)

/-- SE Vx, Vy; the low nibble is ignored (R149, R115). -/
def execSeReg (x y _ : Nibble) (s : State) : Host.Outcome State Fault Refusal :=
  complete s fun s => s.skipIf (s.reg x = s.reg y)

/-- SNE Vx, Vy; the low nibble is ignored (R150, R115). -/
def execSneReg (x y _ : Nibble) (s : State) : Host.Outcome State Fault Refusal :=
  complete s fun s => s.skipIf (s.reg x ≠ s.reg y)

/-- JP V0, NNN: the sum in 16 bits, not masked (R146). -/
def execJpV0 (nnn : Addr) (s : State) : Host.Outcome State Fault Refusal :=
  complete s fun s => s.setPc (zextAddr nnn + zextByte (s.reg 0))

end Sys2Proof.Machine
end

