-- ==== Sys2Proof/Machine/Draw.lean ====
section
/-! DEFINITION. DRW and the sprite engine (43_draw R260 to R268). -/

namespace Sys2Proof.Machine

open Sys2Proof.Config

/-- What a set sprite bit aims at (R262). -/
inductive Target
  /-- The pixel with this linear index. -/
  | pixel (p : Nat)
  /-- Past the frame buffer, under `Literal`: the DISPLAY_BOUNDS fault. -/
  | out
  /-- Off the screen, under `Clip`: the bit is skipped. -/
  | skipped
deriving DecidableEq, Repr

/-- The linear index of row `r`, column `c` of a sprite at `(x0, y0)`, not wrapped. -/
def linearIndex (x0 y0 r c : Nat) : Nat := (y0 + r) * 64 + (x0 + c)

/-- `target(x0, y0, r, c)` under each `SPRITE_EDGE` (R262). -/
def spriteTarget (e : SpriteEdge) (x0 y0 r c : Nat) : Target :=
  match e with
  | .literal => if linearIndex x0 y0 r c ≤ 2047 then .pixel (linearIndex x0 y0 r c) else .out
  | .clip    => if x0 + c < 64 ∧ y0 + r < 32 then .pixel (linearIndex x0 y0 r c) else .skipped
  | .wrap    => .pixel (((y0 + r) % 32) * 64 + (x0 + c) % 64)

/-- The set bits of row `r` as (row, column), column 0 being bit 7 (R260). -/
def rowBits (r : Nat) (b : Byte) : List (Nat × Nat) :=
  ((List.range 8).filter fun c => b.getLsbD (7 - c)).map fun c => (r, c)

/-- The set bits of the sprite rows from row `r` on, rows outer, columns inner (R260). -/
def spriteBits (r : Nat) : List Byte → List (Nat × Nat)
  | []      => []
  | b :: bs => rowBits r b ++ spriteBits (r + 1) bs

/-- The linear index of the first set bit that is out (R260, R265). -/
def firstOut (e : SpriteEdge) (x0 y0 : Nat) : List (Nat × Nat) → Option Nat
  | []           => none
  | (r, c) :: bs => if spriteTarget e x0 y0 r c = .out then some (linearIndex x0 y0 r c) else firstOut e x0 y0 bs

/-- The pixels the set bits aim at, in drawing order (R260). -/
def targetPixels (e : SpriteEdge) (x0 y0 : Nat) : List (Nat × Nat) → List Nat
  | []           => []
  | (r, c) :: bs =>
    match spriteTarget e x0 y0 r c with
    | .pixel p => p :: targetPixels e x0 y0 bs
    | .out     => targetPixels e x0 y0 bs
    | .skipped => targetPixels e x0 y0 bs

/-- Toggle the pixels one by one; the flag is set by a lit one and never reset (R263). -/
def drawPixels (d : Frame) (hit : Bool) : List Nat → Frame × Bool
  | []      => (d, hit)
  | p :: ps => drawPixels (Frame.toggle d p) (hit || Frame.lit d p) ps

/-- The origin column `vx mod 64` (R261). -/
def originX (b : Byte) : Nat := b.toNat % 64

/-- The origin row `vy mod 32` (R261). -/
def originY (b : Byte) : Nat := b.toNat % 32

/-- DXYN with pc advanced: memory check, display check, then the drawing; VF holds the collision (R260, R265, R266). -/
def State.drawSprite (s : State) (x y n : Nibble) : Except Raised State :=
  let x0 := originX (s.reg x)
  let y0 := originY (s.reg y)
  match checkRead s.index.toNat n.toNat with
  | some r => .error r
  | none   =>
    let bits := spriteBits 0 (Memory.readBytes s.mem s.index.toNat n.toNat)
    match firstOut s.params.spriteEdge x0 y0 bits with
    | some p => .error ⟨.displayBounds, p⟩
    | none   =>
      let r := drawPixels s.disp false (targetPixels s.params.spriteEdge x0 y0 bits)
      .ok ((s.setDisp r.1).setReg vf (flagByte r.2))

/-- DRW Vx, Vy, N (R260). -/
def execDrw (x y n : Nibble) (s : State) : Host.Outcome State Fault Refusal :=
  execute (.drw x y n) s fun s => s.drawSprite x y n

end Sys2Proof.Machine
end

