-- ==== Sys2Proof/Machine/Index.lean ====
section
/-! DEFINITION. Memory and index instructions (42_memory_index). None changes I as a side effect of an access (R230). -/

namespace Sys2Proof.Machine

open Sys2Proof.Config

/-- LD I, NNN (R232). -/
def execLdI (nnn : Addr) (s : State) : Host.Outcome State Fault Refusal :=
  complete s fun s => s.setIndex (zextAddr nnn)

/-- ADD I, Vx: modulo 65536, no flag (R233). -/
def execAddI (x : Nibble) (s : State) : Host.Outcome State Fault Refusal :=
  complete s fun s => s.setIndex (s.index + zextByte (s.reg x))

/-- LD F, Vx: the glyph's address; INVALID_DIGIT above 15 (R234). -/
def execLdF (x : Nibble) (s : State) : Host.Outcome State Fault Refusal :=
  execute (.ldF x) s fun s =>
    if (s.reg x).toNat > 15 then .error ⟨.invalidDigit, (s.reg x).toNat⟩
    else .ok (s.setIndex (BitVec.ofNat 16 (fontBase + 5 * (s.reg x).toNat)))

/-- LD B, Vx: store-BCD (R236). -/
def execLdB (x : Nibble) (s : State) : Host.Outcome State Fault Refusal :=
  execute (.ldB x) s fun s => s.storeAtIndex (bcdDigits (s.reg x))

/-- LD [I], Vx: register-dump of V0 to Vx (R237). -/
def execLdMemV (x : Nibble) (s : State) : Host.Outcome State Fault Refusal :=
  execute (.ldMemV x) s fun s => s.storeAtIndex (s.regsTo x)

/-- LD Vx, [I]: register-load of V0 to Vx (R238). -/
def execLdVMem (x : Nibble) (s : State) : Host.Outcome State Fault Refusal :=
  execute (.ldVMem x) s fun s => s.loadFromIndex x

end Sys2Proof.Machine
end

