-- ==== Sys2Proof/Machine/Input.lean ====
section
/-! DEFINITION. Input instructions (44_input). -/

namespace Sys2Proof.Machine

/-- SKP Vx: skip if key vx is pressed; KEY_INDEX above 15 (R290). -/
def execSkp (x : Nibble) (s : State) : Host.Outcome State Fault Refusal :=
  execute (.skp x) s fun s =>
    if (s.reg x).toNat > 15 then .error ⟨.keyIndex, (s.reg x).toNat⟩
    else .ok (s.skipIf (s.pressed (s.reg x).toNat))

/-- SKNP Vx: skip if key vx is not pressed; KEY_INDEX above 15 (R291). -/
def execSknp (x : Nibble) (s : State) : Host.Outcome State Fault Refusal :=
  execute (.sknp x) s fun s =>
    if (s.reg x).toNat > 15 then .error ⟨.keyIndex, (s.reg x).toNat⟩
    else .ok (s.skipIf (!s.pressed (s.reg x).toNat))

/-- LD Vx, K: the least pressed key, or the same instruction again next cycle (R292). -/
def execLdK (x : Nibble) (s : State) : Host.Outcome State Fault Refusal :=
  complete s fun s =>
    match s.leastKey with
    | some k => s.setReg x (BitVec.ofNat 8 k)
    | none   => s.setPc (s.pc - 2)

end Sys2Proof.Machine
end

