-- ==== Sys2Proof/Machine/Timers.lean ====
section
/-! DEFINITION. Timer instructions (45_timers). The tick of the same cycle runs after them (R377). -/

namespace Sys2Proof.Machine

/-- LD Vx, DT (R310). -/
def execLdVDt (x : Nibble) (s : State) : Host.Outcome State Fault Refusal :=
  complete s fun s => s.setReg x s.dt

/-- LD DT, Vx (R311). -/
def execLdDt (x : Nibble) (s : State) : Host.Outcome State Fault Refusal :=
  complete s fun s => s.setDt (s.reg x)

/-- LD ST, Vx (R312). -/
def execLdSt (x : Nibble) (s : State) : Host.Outcome State Fault Refusal :=
  complete s fun s => s.setSt (s.reg x)

end Sys2Proof.Machine
end

