-- ==== Sys2Proof/Machine/Unassigned.lean ====
section
/-! DEFINITION. The unassigned codes: each runs as the no-op (40_control_flow R143, 30_encoding R119). -/

namespace Sys2Proof.Machine

/-- 8XY8 (R119). -/
def execNop88 (_ _ : Nibble) (s : State) : Host.Outcome State Fault Refusal :=
  complete s fun s => s

/-- 8XY9 (R119). -/
def execNop89 (_ _ : Nibble) (s : State) : Host.Outcome State Fault Refusal :=
  complete s fun s => s

/-- 8XYA (R119). -/
def execNop8A (_ _ : Nibble) (s : State) : Host.Outcome State Fault Refusal :=
  complete s fun s => s

/-- 8XYB (R119). -/
def execNop8B (_ _ : Nibble) (s : State) : Host.Outcome State Fault Refusal :=
  complete s fun s => s

/-- 8XYC (R119). -/
def execNop8C (_ _ : Nibble) (s : State) : Host.Outcome State Fault Refusal :=
  complete s fun s => s

/-- 8XYD (R119). -/
def execNop8D (_ _ : Nibble) (s : State) : Host.Outcome State Fault Refusal :=
  complete s fun s => s

/-- 8XYF (R119). -/
def execNop8F (_ _ : Nibble) (s : State) : Host.Outcome State Fault Refusal :=
  complete s fun s => s

/-- EXSS with an unassigned low byte (R119). -/
def execNopE (_ : Nibble) (_ : Byte) (s : State) : Host.Outcome State Fault Refusal :=
  complete s fun s => s

/-- FXSS with an unassigned low byte (R119). -/
def execNopF (_ : Nibble) (_ : Byte) (s : State) : Host.Outcome State Fault Refusal :=
  complete s fun s => s

end Sys2Proof.Machine
end

