-- ==== Sys2Proof/Machine/Step.lean ====
section
/-! DEFINITION. One `step_cycle` (30_encoding R100, R105; 60_exceptions R334, R362), and placing an instruction where the
next cycle fetches it. -/

namespace Sys2Proof.Machine

/-- One cycle. With a fault recorded nothing changes; a fetch past memory records PC_OUT_OF_BOUNDS; otherwise the decoded
instruction runs and, if it completed, the tick. What `step_cycle` returns, ok or the record, is `fault` of the next
state (R335). -/
def step (s : State) : Host.Outcome State Fault Refusal :=
  if s.fault = none then
    match s.fetch with
    | none   => .next (s.takeFault ⟨.pcOutOfBounds, s.pc.toNat⟩ none)
    | some w => endCycle (exec (decodeWord w) s)
  else .next s

/-- `s` with the instruction whose low `nbits` bits are `w` stored at pc, big-endian (20_memory R72). It stands for the
load of a program from outside (log entry 4). -/
def State.withFetchWord (s : State) (nbits w : Nat) : State :=
  let word : Word := BitVec.ofNat 16 (w % 2 ^ nbits)
  { s with mem := Memory.writeBytes s.mem s.pc.toNat [highByte word, lowByte word] }

end Sys2Proof.Machine
end

