-- ==== Sys2Proof/Machine/HostOps.lean ====
section
/-! DEFINITION. The host operations, CORE's whole interface (60_exceptions R360 to R366; 70_reset_and_hazards R370 to R374),
and the order the host must keep (R365; 92 D26, D27). -/

namespace Sys2Proof.Machine

open Sys2Proof.Config

/-- The spec's default parameters (00_scope R10). -/
def defaultSetup : Setup := { params := ⟨.literal, .fault⟩, font := defaultFont, entryPc := 0x200 }

/-- `initialize()` under given parameters (R370): every field zeroed, the font copied in, pc at the entry point, no fault,
and the random source seeded with an unspecified seed (10_state R49). -/
def initialState (c : Setup) (seed : Nat) : State :=
  { State.reset with
    mem    := Memory.writeBytes [] fontBase c.font.toList
    pc     := c.entryPc
    rng    := ⟨seed, 0⟩
    params := c.params }

/-- `load_program(bytes)` on the state (R361): too long is LOAD_FAULT with the length, and no state; otherwise the bytes
lie at 0x200 on. -/
def loadProgram (bytes : List Byte) (s : State) : Host.Outcome State Fault Refusal :=
  if bytes.length > progMax then .fault (.loadFault bytes.length)
  else .next { s with mem := Memory.writeBytes s.mem progBase bytes }

/-- The keypad write: all 16 entries are replaced (R364). -/
def writeKeypad (keys : Vector Bool 16) (s : State) : State := { s with key := keys }

/-- Whether the host plays sound: "audio-on/off from sound_timer > 0" (10_state R41). -/
def State.soundOn (s : State) : Bool := s.st.toNat > 0

/-- The host operations (R360). -/
inductive HostOp
  /-- `initialize()`; the seed is not the host's, it is whatever the source is seeded with (93 I9: any value). -/
  | init (seed : Nat)
  /-- `load_program(bytes)`. -/
  | loadProgram (bytes : List Byte)
  /-- `step_cycle()`. -/
  | stepCycle
  /-- Read display. -/
  | readDisplay
  /-- Read delay timer. -/
  | readDelayTimer
  /-- Read sound timer. -/
  | readSoundTimer
  /-- Read fault. -/
  | readFault
  /-- Write keypad. -/
  | writeKeypad (keys : Vector Bool 16)
deriving DecidableEq, Repr

/-- What an operation returns (R360, R335, R361). -/
inductive Reply
  /-- Nothing. -/
  | none
  /-- ok. -/
  | ok
  /-- The fault record of a cycle. -/
  | fault (r : FaultRecord)
  /-- LOAD_FAULT with the image length. -/
  | loadFault (len : Nat)
  /-- The pixel states. -/
  | display (d : Frame)
  /-- A timer. -/
  | timer (b : Byte)
  /-- The fault register. -/
  | faultRegister (r : Option FaultRecord)
deriving DecidableEq, Repr

/-- The host's view of one machine: its parameters, its state once `initialize` has run, and how far the session is. -/
structure Session where
  setup   : Setup
  machine : Option State
  /-- A program was loaded in this session. -/
  loaded  : Bool
  /-- A cycle has run in this session. -/
  started : Bool
deriving DecidableEq, Repr

/-- A machine before its first `initialize`. -/
def Session.fresh (c : Setup) : Session := { setup := c, machine := none, loaded := false, started := false }

/-- The reply of a cycle (R335, R362). -/
def cycleReply (t : State) : Reply :=
  match t.fault with
  | some r => .fault r
  | none   => .ok

/-- `load_program` in a session: one success, before the first cycle; a failed load changes nothing and may be retried
(R361; 92 D26). -/
def Session.load (h : Session) (bytes : List Byte) (s : State) : Host.Outcome (Session × Reply) Fault Refusal :=
  if h.loaded || h.started then .refused .loadOutOfPhase
  else
    match loadProgram bytes s with
    | .next t             => .next ({ h with machine := some t, loaded := true }, .ok)
    | .fault (.loadFault n) => .next (h, .loadFault n)
    | .refused r          => .refused r

/-- `step_cycle` in a session. -/
def Session.cycle (h : Session) (s : State) : Host.Outcome (Session × Reply) Fault Refusal :=
  match step s with
  | .next t    => .next ({ h with machine := some t, started := true }, cycleReply t)
  | .fault f   => .fault f
  | .refused r => .refused r

/-- One host operation (R360). `initialize` is always allowed and begins a new session (R373); before the first one every
other operation is refused (R365). -/
def Session.apply (op : HostOp) (h : Session) : Host.Outcome (Session × Reply) Fault Refusal :=
  match op, h.machine with
  | .init seed, _ =>
    .next ({ h with machine := some (initialState h.setup seed), loaded := false, started := false }, .none)
  | _, none                    => .refused .beforeInit
  | .loadProgram bytes, some s => h.load bytes s
  | .stepCycle, some s         => h.cycle s
  | .readDisplay, some s       => .next (h, .display s.disp)
  | .readDelayTimer, some s    => .next (h, .timer s.dt)
  | .readSoundTimer, some s    => .next (h, .timer s.st)
  | .readFault, some s         => .next (h, .faultRegister s.fault)
  | .writeKeypad keys, some s  => .next ({ h with machine := some (writeKeypad keys s) }, .none)

end Sys2Proof.Machine
end

