-- ==== Sys2Proof/Safety.lean ====
section
/-! DEFINITION. What counts as a safe cycle, in the terms claims use: no fault is recorded (60_exceptions R334, R337). -/

namespace Sys2Proof

open Sys2Proof.Machine

/-- No fault has been recorded. -/
def Running (s : State) : Prop := s.fault = none

/-- The cycle from `s` completes: `s` has no fault recorded, and neither has the next state. -/
def CycleCompletes (s t : State) : Prop := Running s ∧ step s = .next t ∧ Running t

end Sys2Proof
end

