-- ==== Sys2Proof/Certificates/Slice0/Obligations.lean ====
section
/-! DEFINITION. The statements for the provers, from the numbered rules of spec/. Each docstring names the rule; helper
definitions stand first, under Sys2Proof.Claims. Every per-instruction statement holds for every operand, VF (register 15)
included. `Recorded`, `KeepsAllBut` and the memory reads say the frames. -/

namespace Sys2Proof.Claims

open Sys2Proof Sys2Proof.Machine Sys2Proof.Config

/-- The parts of a state other than pc. -/
inductive Part
  | memory
  | registers
  | index
  | stack
  | delay
  | sound
  | keys
  | screen
  | random
  | fault
  | params
deriving DecidableEq, Repr

/-- The part is the same in both states: every byte, every register, every field. -/
def Part.Same : Part → State → State → Prop
  | .memory, s, t    => ∀ a, Memory.read t.mem a = Memory.read s.mem a
  | .registers, s, t => ∀ r, t.reg r = s.reg r
  | .index, s, t     => t.index = s.index
  | .stack, s, t     => t.stack = s.stack ∧ t.sp = s.sp
  | .delay, s, t     => t.dt = s.dt
  | .sound, s, t     => t.st = s.st
  | .keys, s, t      => t.key = s.key
  | .screen, s, t    => t.disp = s.disp
  | .random, s, t    => t.rng = s.rng
  | .fault, s, t     => t.fault = s.fault
  | .params, s, t    => t.params = s.params

/-- From `s` to `t` every part is the same except perhaps those listed; pc may change. -/
def KeepsAllBut (ps : List Part) (s t : State) : Prop := ∀ p, p ∉ ps → p.Same s t

/-- `w` is the word of `i`, both ways. -/
def Encodes (w : Word) (i : Instr) : Prop := decodeWord w = i ∧ encode i = w

/-- `s` with the fault record of instruction `i` at pc and nothing else changed (60_exceptions R334). -/
def Recorded (s : State) (i : Instr) (c : FaultCause) (info : Nat) : State :=
  { s with fault := some { cause := c, pc := s.pc, opcode := some (encode i), info := info } }

/-- Bit c (bit 7 - c of the byte, most significant first) of sprite row r is set, for a sprite of height `n` at I. -/
def SetBit (s : State) (n : Nibble) (r c : Nat) : Prop :=
  r < n.toNat ∧ c < 8 ∧ (Memory.read s.mem (s.index.toNat + r)).getLsbD (7 - c) = true

/-- The linear index of row r, column c of a sprite whose origin registers hold `vx` and `vy` (43_draw R261, R262). -/
def spriteIndex (vx vy : Byte) (r c : Nat) : Nat := (vy.toNat % 32 + r) * 64 + (vx.toNat % 64 + c)

/-- Row r, column c of the sprite aims at pixel `p` (R262). -/
def Aims (e : SpriteEdge) (vx vy : Byte) (r c p : Nat) : Prop :=
  match e with
  | .literal => p = spriteIndex vx vy r c ∧ p ≤ 2047
  | .clip    => vx.toNat % 64 + c < 64 ∧ vy.toNat % 32 + r < 32 ∧ p = spriteIndex vx vy r c
  | .wrap    => p = ((vy.toNat % 32 + r) % 32) * 64 + (vx.toNat % 64 + c) % 64

/-- Some set bit of the sprite aims at `p`. -/
def Drawn (s : State) (x y n : Nibble) (p : Nat) : Prop :=
  ∃ r c, SetBit s n r c ∧ Aims s.params.spriteEdge (s.reg x) (s.reg y) r c p

/-- The parts an instruction may change (10_state R33, R34, R37, R40 to R43; 20_memory R71; 60_exceptions R331). -/
def mayChange : Instr → List Part
  | .cls _ => [.screen]
  | .ret _ | .call _ => [.stack, .fault]
  | .sys _ | .jp _ | .jpV0 _ | .seImm _ _ | .sneImm _ _ | .seReg _ _ _ | .sneReg _ _ _ => []
  | .nop88 _ _ | .nop89 _ _ | .nop8A _ _ | .nop8B _ _ | .nop8C _ _ | .nop8D _ _ | .nop8F _ _ => []
  | .nopE _ _ | .nopF _ _ => []
  | .ldImm _ _ | .addImm _ _ | .ldReg _ _ | .or _ _ | .and _ _ | .xor _ _ | .addReg _ _ => [.registers]
  | .sub _ _ | .shr _ _ | .subn _ _ | .shl _ _ | .ldVDt _ | .ldK _ => [.registers]
  | .rnd _ _ => [.registers, .random]
  | .ldI _ | .addI _ => [.index]
  | .ldF _ => [.index, .fault]
  | .drw _ _ _ => [.registers, .screen, .fault]
  | .skp _ | .sknp _ => [.fault]
  | .ldDt _ => [.delay]
  | .ldSt _ => [.sound]
  | .ldB _ | .ldMemV _ => [.memory, .fault]
  | .ldVMem _ => [.registers, .fault]

/-- The general registers an instruction may write (10_state R33). -/
def mayWrite : Instr → Nibble → Prop
  | .ldImm x _, r | .addImm x _, r | .ldReg x _, r | .or x _, r | .and x _, r | .xor x _, r => r = x
  | .rnd x _, r | .ldVDt x, r | .ldK x, r => r = x
  | .addReg x _, r | .sub x _, r | .shr x _, r | .subn x _, r | .shl x _, r => r = x ∨ r = 15
  | .drw _ _ _, r => r = 15
  | .ldVMem x, r => r.toNat ≤ x.toNat
  | .cls _, _ | .ret _, _ | .call _, _ | .sys _, _ | .jp _, _ | .jpV0 _, _ | .seImm _ _, _ | .sneImm _ _, _ => False
  | .seReg _ _ _, _ | .sneReg _ _ _, _ | .nop88 _ _, _ | .nop89 _ _, _ | .nop8A _ _, _ | .nop8B _ _, _ => False
  | .nop8C _ _, _ | .nop8D _ _, _ | .nop8F _ _, _ | .nopE _ _, _ | .nopF _ _, _ | .ldI _, _ | .addI _, _ => False
  | .ldF _, _ | .skp _, _ | .sknp _, _ | .ldDt _, _ | .ldSt _, _ | .ldB _, _ | .ldMemV _, _ => False

/-- Font protection is on and the font cells hold `f` (20_memory R78). -/
def FontIntact (f : Font) (s : State) : Prop :=
  s.params.fontWrite = .fault ∧ ∀ k, (h : k < 80) → Memory.read s.mem (0x50 + k) = f[k]

/-- pc is at most 0x10FE and every stack entry at most 0x1000 (10_state R36; 40_control_flow R142). -/
def AddressesInRange (s : State) : Prop :=
  s.pc.toNat ≤ 0x10FE ∧ ∀ k, (h : k < 16) → (s.stack[k]).toNat ≤ 0x1000

/-- `k` completed cycles from `s` to `t`, each running an instruction that satisfies `ok`. -/
def Cycles (ok : Instr → Prop) : Nat → State → State → Prop
  | 0, s, t     => t = s
  | k + 1, s, t => ∃ u w, s.fetch = some w ∧ ok (decodeWord w) ∧ CycleCompletes s u ∧ Cycles ok k u t

end Sys2Proof.Claims

open Sys2Proof Sys2Proof.Machine Sys2Proof.Config Sys2Proof.Claims

/-! ## Encoding -/

/-- Decoding the word of a well-formed instruction gives it back, every operand included (30_encoding R106 to R118). That
the bits the decoder ignores are among the operands is the model's choice (log entry 7). -/
def Obligations.DecodeOfEncodeIsTheInstruction : Prop :=
  ∀ i : Instr, i.wf = true → decodeWord (encode i) = i

/-- Every 16-bit word decodes to a well-formed instruction (R118: no word is undecodable) whose word it is. The second
clause, that no bit is dropped, rests on the model's choice to keep the bits the decoder ignores as operands (log entry 7,
DESIGN CHOICE); R118 alone does not give it. -/
def Obligations.EveryWordDecodesAndReencodes : Prop :=
  ∀ w : Word, (decodeWord w).wf = true ∧ encode (decodeWord w) = w

/-- Of the opcode table's rows that a word fits, the decoder picks the one with the largest mask (opcode_table.json: SYS,
EXSS and FXSS match "only when" the rows with longer masks do not; R118). -/
def Obligations.DecoderPicksTheMostSpecificTableRow : Prop :=
  ∀ (w : Word) (i : Instr), (tableRow i).fits w = true →
    (tableRow (decodeWord w)).fits w = true ∧
    (tableRow (decodeWord w)).mask &&& (tableRow i).mask = (tableRow i).mask ∧
    ((tableRow (decodeWord w)).mask = (tableRow i).mask → tableRow (decodeWord w) = tableRow i)

/-- A few words written out from the patterns of R116, at least one for each of the sixteen families of the top nibble, the
timer instructions included; a sanity statement. -/
def Obligations.SampleWordsDecode : Prop :=
  decodeWord 0b0000_0101_1110_0000 = .cls 5 ∧ decodeWord 0b0000_0000_1110_1110 = .ret 0 ∧
  decodeWord 0b0001_0010_0011_0100 = .jp 0x234 ∧ decodeWord 0b0011_0011_0100_0010 = .seImm 3 0x42 ∧
  decodeWord 0b0101_0001_0010_1111 = .seReg 1 2 15 ∧ decodeWord 0b0111_1111_0000_0010 = .addImm 15 2 ∧
  decodeWord 0b1000_0001_0010_0111 = .subn 1 2 ∧ decodeWord 0b1000_0001_0010_1000 = .nop88 1 2 ∧
  decodeWord 0b1011_0011_1111_1111 = .jpV0 0x3FF ∧ decodeWord 0b1101_0000_0001_0101 = .drw 0 1 5 ∧
  decodeWord 0b1110_0111_1010_0001 = .sknp 7 ∧ decodeWord 0b1111_0010_0101_0101 = .ldMemV 2 ∧
  decodeWord 0b1111_0001_1111_1111 = .nopF 1 0xFF ∧
  decodeWord 0b0010_0011_0000_0001 = .call 0x301 ∧ decodeWord 0b0100_0011_0100_0010 = .sneImm 3 0x42 ∧
  decodeWord 0b0110_1010_0010_1111 = .ldImm 10 0x2F ∧ decodeWord 0b1001_0001_0010_0000 = .sneReg 1 2 0 ∧
  decodeWord 0b1010_0011_0000_0101 = .ldI 0x305 ∧ decodeWord 0b1100_0011_0000_1111 = .rnd 3 0x0F ∧
  decodeWord 0b1111_0011_0000_0111 = .ldVDt 3 ∧ decodeWord 0b1111_0000_0001_0101 = .ldDt 0 ∧
  decodeWord 0b1111_0000_0001_1000 = .ldSt 0

/-! ## The cycle -/

/-- When the two bytes at pc decode to `i` and no fault stands, the cycle is exec of `i`, followed by the tick if the
instruction completed (R103 to R105). -/
def Obligations.StepRunsTheDecodedInstruction : Prop :=
  ∀ (s : State) (i : Instr), s.fault = none → s.pc.toNat ≤ 0xFFE → i.wf = true →
    decodeBytes [Memory.read s.mem s.pc.toNat, Memory.read s.mem (s.pc.toNat + 1)] = .ok (i, []) →
    ∃ t, exec i s = .next t ∧ step s = .next (if t.fault = none then t.tick else t)

/-- The fetch is big-endian, and past 0xFFE it records PC_OUT_OF_BOUNDS with no opcode and nothing else (R101). -/
def Obligations.FetchIsBigEndianAndBounded : Prop :=
  ∀ s : State,
    (s.pc.toNat ≤ 0xFFE → ∃ w, s.fetch = some w ∧
      w.toNat = 256 * (Memory.read s.mem s.pc.toNat).toNat + (Memory.read s.mem (s.pc.toNat + 1)).toNat) ∧
    (s.pc.toNat > 0xFFE → s.fault = none →
      step s = .next { s with fault := some { cause := .pcOutOfBounds, pc := s.pc, opcode := none, info := s.pc.toNat } })

/-- No cycle stops the model: `step` answers a next state from every state (R105). -/
def Obligations.EveryCycleAnswersANextState : Prop :=
  ∀ s : State, ∃ t, step s = .next t

/-- A faulting cycle commits nothing but the record, which holds the start pc and the fetched word (none at fetch); a
recorded fault makes every later cycle change nothing, and no host operation but `initialize` clears it (60_exceptions
R334). -/
def Obligations.FaultsCommitOnlyTheRecord : Prop :=
  (∀ s t : State, step s = .next t →
    (s.fault = none → ∀ r, t.fault = some r → t = { s with fault := some r } ∧ r.pc = s.pc ∧ r.opcode = s.fetch) ∧
    (s.fault ≠ none → t = s)) ∧
  (∀ (h : Session) (s : State) (r : FaultRecord), h.machine = some s → s.fault = some r →
    (∀ op h' reply, (∀ seed, op ≠ .init seed) → h.apply op = .next (h', reply) →
      ∃ s', h'.machine = some s' ∧ s'.fault = some r) ∧
    (∃ h', h.apply .stepCycle = .next (h', .fault r) ∧ h'.machine = some s) ∧
    (∀ seed, ∃ h' s', h.apply (.init seed) = .next (h', .none) ∧ h'.machine = some s' ∧ s'.fault = none))

/-- The tick runs once after every completed cycle, after the instruction; FX15 and FX18 alone set a timer besides it; a
cycle that faults runs no tick (45_timers R315). -/
def Obligations.TimersTickOncePerCompletedCycle : Prop :=
  (∀ (s t : State) (w : Word), CycleCompletes s t → s.fetch = some w →
    ((∀ x, decodeWord w ≠ .ldDt x) → t.dt.toNat = s.dt.toNat - 1) ∧
    ((∀ x, decodeWord w ≠ .ldSt x) → t.st.toNat = s.st.toNat - 1) ∧
    (∀ x, decodeWord w = .ldDt x → t.dt.toNat = (s.reg x).toNat - 1) ∧
    (∀ x, decodeWord w = .ldSt x → t.st.toNat = (s.reg x).toNat - 1)) ∧
  (∀ s t : State, s.fault = none → step s = .next t → t.fault ≠ none → t.dt = s.dt ∧ t.st = s.st)

/-- Over all instructions: what an instruction may change at all, and which general registers (10_state R33, R34, R37, R40
to R43; 20_memory R71). The keys and the parameters are in no list. -/
def Obligations.EachInstructionChangesOnlyItsOwnParts : Prop :=
  ∀ (i : Instr) (s t : State), exec i s = .next t →
    KeepsAllBut (mayChange i) s t ∧ ∀ r, ¬ mayWrite i r → t.reg r = s.reg r

/-- The frame buffer is "mutated only by the clear and draw instructions", and the host reads it as it is (43_draw R268). -/
def Obligations.ScreenChangesOnlyByClearAndDraw : Prop :=
  (∀ s t : State, step s = .next t → t.disp ≠ s.disp →
    ∃ w, s.fetch = some w ∧ ((∃ n, decodeWord w = .cls n) ∨ ∃ x y n, decodeWord w = .drw x y n)) ∧
  (∀ (h : Session) (s : State), h.machine = some s → h.apply .readDisplay = .next (h, .display s.disp))

/-! ## Invariants -/

/-- Every step keeps memory in its canonical form. -/
def Obligations.StepKeepsMemoryCanonical : Prop :=
  ∀ s t : State, s.mem.wf = true → step s = .next t → t.mem.wf = true

/-- With FONT_WRITE = Fault no step changes a font cell or the parameter (20_memory R78). -/
def Obligations.StepKeepsTheFont : Prop :=
  ∀ (f : Font) (s t : State), FontIntact f s → step s = .next t → FontIntact f t

/-- Every step keeps pc at most 0x10FE and every stack entry at most 0x1000 (10_state R36; 40_control_flow R142). -/
def Obligations.StepKeepsAddressesInRange : Prop :=
  ∀ s t : State, AddressesInRange s → step s = .next t → AddressesInRange t

/-- The reset state meets the three invariants. -/
def Obligations.ResetMeetsTheInvariants : Prop :=
  State.reset.mem.wf = true ∧ FontIntact defaultFont State.reset ∧ AddressesInRange State.reset

/-- Canonical memories that read the same everywhere are equal. Of the model: the canonical form is its own (log entry 5). -/
def Obligations.EqualContentsAreEqualMemories : Prop :=
  ∀ m m' : Memory, m.wf = true → m'.wf = true → (∀ a, Memory.read m a = Memory.read m' a) → m = m'

/-! ## Reset and the host -/

/-- `initialize` leaves the table of 10_state R49, for every font, entry point and seed; the default entry point is 0x200
(70_reset_and_hazards R370). -/
def Obligations.InitializeGivesTheResetTable : Prop :=
  (∀ (c : Setup) (seed : Nat),
    (∀ k, (h : k < 80) → Memory.read (initialState c seed).mem (0x50 + k) = c.font[k]) ∧
    (∀ a, a < 0x50 ∨ 0xA0 ≤ a → Memory.read (initialState c seed).mem a = 0) ∧
    (∀ r, (initialState c seed).reg r = 0) ∧ (initialState c seed).index = 0 ∧
    (initialState c seed).pc = c.entryPc ∧
    (∀ k, (h : k < 16) → (initialState c seed).stack[k] = 0) ∧ (initialState c seed).sp = 0 ∧
    (initialState c seed).dt = 0 ∧ (initialState c seed).st = 0 ∧
    (∀ k, (initialState c seed).pressed k = false) ∧ (∀ p, (initialState c seed).disp.lit p = false) ∧
    (initialState c seed).fault = none ∧ (initialState c seed).params = c.params) ∧
  defaultSetup.entryPc = 0x200

/-- With the default parameters `initialize` gives the model's reset state, whatever the seed. Of the model: the pair that
names a draw (log entry 1) and the default font, the spec's own from general knowledge (log entry 3). -/
def Obligations.ResetIsInitializeWithTheDefaults : Prop :=
  ∀ seed, initialState defaultSetup seed = { State.reset with rng := ⟨seed, 0⟩ }

/-- `load_program`: at most 3584 bytes land at 0x200 on and nothing else changes; more is LOAD_FAULT with the length and no
change at all, so it may be retried; a load after a successful one or after a cycle is refused (60_exceptions R361). -/
def Obligations.LoadProgramFillsFromTwoHundred : Prop :=
  ∀ (h : Session) (s : State) (bytes : List Byte), h.machine = some s →
    (h.loaded = false → h.started = false → bytes.length > 4096 - 0x200 →
      h.apply (.loadProgram bytes) = .next (h, .loadFault bytes.length)) ∧
    (h.loaded = false → h.started = false → bytes.length ≤ 4096 - 0x200 → s.mem.wf = true →
      ∃ t, h.apply (.loadProgram bytes) = .next ({ h with machine := some t, loaded := true }, .ok) ∧ t.pc = s.pc ∧
        (∀ k, (hk : k < bytes.length) → Memory.read t.mem (0x200 + k) = bytes[k]) ∧
        (∀ a, a < 0x200 ∨ 0x200 + bytes.length ≤ a → Memory.read t.mem a = Memory.read s.mem a) ∧
        KeepsAllBut [.memory] s t) ∧
    (h.loaded = true ∨ h.started = true → h.apply (.loadProgram bytes) = .refused .loadOutOfPhase)

/-- Before `initialize` every other operation is refused; `initialize` is always accepted and begins a new session with
nothing loaded; a cycle closes the time for loading (R365, R373; 92 D26, D27). -/
def Obligations.HostOperationsKeepTheirOrder : Prop :=
  ∀ h : Session,
    (h.machine = none → ∀ op, (∀ seed, op ≠ .init seed) → h.apply op = .refused .beforeInit) ∧
    (∀ seed, ∃ h', h.apply (.init seed) = .next (h', .none) ∧ h'.machine = some (initialState h.setup seed) ∧
      h'.loaded = false ∧ h'.started = false) ∧
    (∀ s, h.machine = some s → ∃ t h' reply, step s = .next t ∧ h.apply .stepCycle = .next (h', reply) ∧
      h'.machine = some t ∧ h'.started = true ∧ reply = match t.fault with | some r => .fault r | none => .ok)

/-- The host reads the frame buffer, the timers and the fault register as they are, and reading changes nothing; sound is on
iff ST > 0 (R363). -/
def Obligations.HostReadsChangeNothing : Prop :=
  ∀ (h : Session) (s : State), h.machine = some s →
    h.apply .readDisplay = .next (h, .display s.disp) ∧ h.apply .readDelayTimer = .next (h, .timer s.dt) ∧
    h.apply .readSoundTimer = .next (h, .timer s.st) ∧ h.apply .readFault = .next (h, .faultRegister s.fault) ∧
    (s.soundOn = true ↔ s.st.toNat > 0)

/-- The keypad write replaces every entry and changes nothing else, pc included (R364). -/
def Obligations.KeypadWriteReplacesEveryKey : Prop :=
  ∀ (h : Session) (s : State) (keys : Vector Bool 16), h.machine = some s →
    ∃ t, h.apply (.writeKeypad keys) = .next ({ h with machine := some t }, .none) ∧
      (∀ k, (hk : k < 16) → t.pressed k = keys[k]) ∧ t.pc = s.pc ∧ KeepsAllBut [.keys] s t

/-! ## Control flow -/

/-- CLS: every pixel unlit, nothing else (40_control_flow R141). -/
def Obligations.ClearDisplayUnlightsEveryPixel : Prop :=
  ∀ (s : State) (n : Nibble), Encodes (0x0#4 ++ n ++ 0xE0#8) (.cls n) ∧
    ∃ t, exec (.cls n) s = .next t ∧ t.pc = s.pc + 2 ∧ (∀ p, t.disp.lit p = false) ∧ KeepsAllBut [.screen] s t

/-- RET: pc is the entry below sp and sp goes down by one, the entries kept; STACK_UNDERFLOW when sp = 0 (R142). -/
def Obligations.ReturnPopsIntoPc : Prop :=
  ∀ (s : State) (n : Nibble), Encodes (0x0#4 ++ n ++ 0xEE#8) (.ret n) ∧
    (s.sp.val = 0 → exec (.ret n) s = .next (Recorded s (.ret n) .stackUnderflow 0)) ∧
    (s.sp.val ≠ 0 → ∃ t, exec (.ret n) s = .next t ∧ s.stack[s.sp.val - 1]? = some t.pc ∧ t.sp.val = s.sp.val - 1 ∧
      t.stack = s.stack ∧ KeepsAllBut [.stack] s t)

/-- SYS and every unassigned code: pc advances and nothing else changes; in a cycle the tick still runs (R143, 30_encoding
R119). -/
def Obligations.NoOpsOnlyAdvancePc : Prop :=
  ∀ (s : State) (nnn : Addr) (x y : Nibble) (ss : Byte),
    ∀ p ∈ [(Instr.sys nnn, (0x0#4 ++ nnn : Word)), (.nop88 x y, 0x8#4 ++ x ++ y ++ 0x8#4),
        (.nop89 x y, 0x8#4 ++ x ++ y ++ 0x9#4), (.nop8A x y, 0x8#4 ++ x ++ y ++ 0xA#4),
        (.nop8B x y, 0x8#4 ++ x ++ y ++ 0xB#4), (.nop8C x y, 0x8#4 ++ x ++ y ++ 0xC#4),
        (.nop8D x y, 0x8#4 ++ x ++ y ++ 0xD#4), (.nop8F x y, 0x8#4 ++ x ++ y ++ 0xF#4),
        (.nopE x ss, 0xE#4 ++ x ++ ss), (.nopF x ss, 0xF#4 ++ x ++ ss)],
      (p.1.wf = true → Encodes p.2 p.1) ∧
      ∃ t, exec p.1 s = .next t ∧ t.pc = s.pc + 2 ∧ KeepsAllBut [] s t ∧
        (p.1.wf = true → s.fault = none → s.fetch = some p.2 → step s = .next t.tick)

/-- JP and JP V0: pc is NNN, or NNN + V0 with no wrap and no mask (R144, R146). -/
def Obligations.JumpsSetPc : Prop :=
  ∀ (s : State) (nnn : Addr),
    Encodes (0x1#4 ++ nnn) (.jp nnn) ∧ Encodes (0xB#4 ++ nnn) (.jpV0 nnn) ∧
    (∃ t, exec (.jp nnn) s = .next t ∧ t.pc.toNat = nnn.toNat ∧ KeepsAllBut [] s t) ∧
    (∃ t, exec (.jpV0 nnn) s = .next t ∧ t.pc.toNat = nnn.toNat + (s.reg 0).toNat ∧ KeepsAllBut [] s t)

/-- CALL: the address after the call is pushed, the other entries kept, and pc is NNN; STACK_OVERFLOW when sp = 16 (R145). -/
def Obligations.CallPushesTheNextAddress : Prop :=
  ∀ (s : State) (nnn : Addr), Encodes (0x2#4 ++ nnn) (.call nnn) ∧
    (s.sp.val = 16 → exec (.call nnn) s = .next (Recorded s (.call nnn) .stackOverflow 16)) ∧
    (s.sp.val ≠ 16 → ∃ t, exec (.call nnn) s = .next t ∧ t.pc.toNat = nnn.toNat ∧ t.sp.val = s.sp.val + 1 ∧
      t.stack[s.sp.val]? = some (s.pc + 2) ∧ (∀ k, k ≠ s.sp.val → t.stack[k]? = s.stack[k]?) ∧ KeepsAllBut [.stack] s t)

/-- The four skips: pc goes on by 4 when the condition holds and by 2 when it does not; nothing else changes; the low nibble
of the register forms is ignored (R147 to R150). -/
def Obligations.SkipsAddTwoWhenTheConditionHolds : Prop :=
  ∀ (s : State) (x y n : Nibble) (nn : Byte),
    (Encodes (0x3#4 ++ x ++ nn) (.seImm x nn) ∧ Encodes (0x4#4 ++ x ++ nn) (.sneImm x nn) ∧
      Encodes (0x5#4 ++ x ++ y ++ n) (.seReg x y n) ∧ Encodes (0x9#4 ++ x ++ y ++ n) (.sneReg x y n)) ∧
    ∀ p ∈ [(Instr.seImm x nn, decide ((s.reg x).toNat = nn.toNat)), (.sneImm x nn, decide ((s.reg x).toNat ≠ nn.toNat)),
        (.seReg x y n, decide ((s.reg x).toNat = (s.reg y).toNat)),
        (.sneReg x y n, decide ((s.reg x).toNat ≠ (s.reg y).toNat))],
      ∃ t, exec p.1 s = .next t ∧ t.pc = (if p.2 = true then s.pc + 4 else s.pc + 2) ∧ KeepsAllBut [] s t

/-! ## Registers and arithmetic -/

/-- LD Vx, NN and LD Vx, Vy (41_register_alu R183, R185). -/
def Obligations.LoadsSetOneRegister : Prop :=
  ∀ (s : State) (x y : Nibble) (nn : Byte),
    (Encodes (0x6#4 ++ x ++ nn) (.ldImm x nn) ∧ Encodes (0x8#4 ++ x ++ y ++ 0x0#4) (.ldReg x y)) ∧
    ∀ p ∈ [(Instr.ldImm x nn, nn), (.ldReg x y, s.reg y)],
      ∃ t, exec p.1 s = .next t ∧ t.pc = s.pc + 2 ∧ t.reg x = p.2 ∧ (∀ r, r ≠ x → t.reg r = s.reg r) ∧
        KeepsAllBut [.registers] s t

/-- ADD Vx, NN: the sum modulo 256, no flag; VF changes only as the destination (R184). -/
def Obligations.AddImmediateWrapsWithoutFlag : Prop :=
  ∀ (s : State) (x : Nibble) (nn : Byte), Encodes (0x7#4 ++ x ++ nn) (.addImm x nn) ∧
    ∃ t, exec (.addImm x nn) s = .next t ∧ t.pc = s.pc + 2 ∧
      (t.reg x).toNat = ((s.reg x).toNat + nn.toNat) % 256 ∧ (∀ r, r ≠ x → t.reg r = s.reg r) ∧
      KeepsAllBut [.registers] s t

/-- OR, AND, XOR: bit by bit into Vx, VF kept (R186 to R188). -/
def Obligations.BitwiseOperationsKeepTheFlag : Prop :=
  ∀ (s : State) (x y : Nibble),
    (Encodes (0x8#4 ++ x ++ y ++ 0x1#4) (.or x y) ∧ Encodes (0x8#4 ++ x ++ y ++ 0x2#4) (.and x y) ∧
      Encodes (0x8#4 ++ x ++ y ++ 0x3#4) (.xor x y)) ∧
    ∀ p ∈ [(Instr.or x y, fun a b : Bool => a || b), (.and x y, fun a b => a && b), (.xor x y, fun a b => a ^^ b)],
      ∃ t, exec p.1 s = .next t ∧ t.pc = s.pc + 2 ∧
        (∀ k, k < 8 → (t.reg x).getLsbD k = p.2 ((s.reg x).getLsbD k) ((s.reg y).getLsbD k)) ∧
        (∀ r, r ≠ x → t.reg r = s.reg r) ∧ KeepsAllBut [.registers] s t

/-- ADD Vx, Vy: the sum modulo 256, VF = 1 iff the exact sum passes 255; with X = 15 the sum stays in VF (R189). -/
def Obligations.AddSetsTheCarry : Prop :=
  ∀ (s : State) (x y : Nibble), Encodes (0x8#4 ++ x ++ y ++ 0x4#4) (.addReg x y) ∧
    ∃ t, exec (.addReg x y) s = .next t ∧ t.pc = s.pc + 2 ∧
      (t.reg x).toNat = ((s.reg x).toNat + (s.reg y).toNat) % 256 ∧
      (x ≠ 15 → t.reg 15 = if (s.reg x).toNat + (s.reg y).toNat > 255 then 1 else 0) ∧
      (∀ r, r ≠ x → r ≠ 15 → t.reg r = s.reg r) ∧ KeepsAllBut [.registers] s t

/-- SUB and SUBN: the difference modulo 256, VF = 1 iff strictly greater (equal operands give 0); with X = 15 the difference
stays in VF (R190, R191). -/
def Obligations.SubtractsSetNoBorrow : Prop :=
  ∀ (s : State) (x y : Nibble),
    (Encodes (0x8#4 ++ x ++ y ++ 0x5#4) (.sub x y) ∧ Encodes (0x8#4 ++ x ++ y ++ 0x7#4) (.subn x y)) ∧
    ∀ p ∈ [(Instr.sub x y, (s.reg x).toNat, (s.reg y).toNat), (.subn x y, (s.reg y).toNat, (s.reg x).toNat)],
      ∃ t, exec p.1 s = .next t ∧ t.pc = s.pc + 2 ∧
        (t.reg x).toNat = (if p.2.1 < p.2.2 then p.2.1 + 256 - p.2.2 else p.2.1 - p.2.2) ∧
        (x ≠ 15 → t.reg 15 = if p.2.1 > p.2.2 then 1 else 0) ∧
        (∀ r, r ≠ x → r ≠ 15 → t.reg r = s.reg r) ∧ KeepsAllBut [.registers] s t

/-- SHR and SHL: of Vx itself, Vy not read; VF is the bit shifted out; with X = 15 the result stays in VF (R192, R193). -/
def Obligations.ShiftsSetTheBitShiftedOut : Prop :=
  ∀ (s : State) (x y : Nibble),
    (Encodes (0x8#4 ++ x ++ y ++ 0x6#4) (.shr x y) ∧ Encodes (0x8#4 ++ x ++ y ++ 0xE#4) (.shl x y)) ∧
    ∀ p ∈ [(Instr.shr x y, (s.reg x).toNat / 2, (s.reg x).toNat % 2),
        (.shl x y, (s.reg x).toNat * 2 % 256, (s.reg x).toNat / 128)],
      ∃ t, exec p.1 s = .next t ∧ t.pc = s.pc + 2 ∧ (t.reg x).toNat = p.2.1 ∧
        (x ≠ 15 → (t.reg 15).toNat = p.2.2) ∧
        (∀ r, r ≠ x → r ≠ 15 → t.reg r = s.reg r) ∧ KeepsAllBut [.registers] s t

/-- RND: the free byte of this draw AND NN, and the next draw is another one (R194). The pair that names the draw is the
model's choice (log entry 1); the byte is free, so this holds for every source. -/
def Obligations.RandomByteIsMaskedAndFresh : Prop :=
  ∀ (s : State) (x : Nibble) (nn : Byte), Encodes (0xC#4 ++ x ++ nn) (.rnd x nn) ∧
    ∃ t, exec (.rnd x nn) s = .next t ∧ t.pc = s.pc + 2 ∧
      (∀ k, k < 8 → (t.reg x).getLsbD k = ((randomByte s.rng.seed s.rng.drawn).getLsbD k && nn.getLsbD k)) ∧
      t.rng.seed = s.rng.seed ∧ t.rng.drawn = s.rng.drawn + 1 ∧
      (∀ r, r ≠ x → t.reg r = s.reg r) ∧ KeepsAllBut [.registers, .random] s t

/-! ## Memory and index -/

/-- LD I, NNN and ADD I, Vx, the latter modulo 65536 and with no flag (42_memory_index R232, R233). -/
def Obligations.IndexIsSetAndAdded : Prop :=
  ∀ (s : State) (nnn : Addr) (x : Nibble),
    (Encodes (0xA#4 ++ nnn) (.ldI nnn) ∧ Encodes (0xF#4 ++ x ++ 0x1E#8) (.addI x)) ∧
    ∀ p ∈ [(Instr.ldI nnn, nnn.toNat), (.addI x, (s.index.toNat + (s.reg x).toNat) % 65536)],
      ∃ t, exec p.1 s = .next t ∧ t.pc = s.pc + 2 ∧ t.index.toNat = p.2 ∧ KeepsAllBut [.index] s t

/-- LD F, Vx: 0x50 + 5 vx for a digit, INVALID_DIGIT above 15 (R234). -/
def Obligations.FontAddressOfADigit : Prop :=
  ∀ (s : State) (x : Nibble), Encodes (0xF#4 ++ x ++ 0x29#8) (.ldF x) ∧
    ((s.reg x).toNat > 15 → exec (.ldF x) s = .next (Recorded s (.ldF x) .invalidDigit (s.reg x).toNat)) ∧
    ((s.reg x).toNat ≤ 15 → ∃ t, exec (.ldF x) s = .next t ∧ t.pc = s.pc + 2 ∧
      t.index.toNat = 0x50 + 5 * (s.reg x).toNat ∧ KeepsAllBut [.index] s t)

/-- LD B, Vx: three decimal digits, most significant first, at I, I+1, I+2; bounds, then font, then nothing written (R235,
R236). The premise on memory is the invariant of StepKeepsMemoryCanonical. -/
def Obligations.StoreBcdWritesThreeDigits : Prop :=
  ∀ (s : State) (x : Nibble), Encodes (0xF#4 ++ x ++ 0x33#8) (.ldB x) ∧
    (s.index.toNat + 2 > 0xFFF →
      exec (.ldB x) s = .next (Recorded s (.ldB x) .memoryBounds (max s.index.toNat 0x1000))) ∧
    (s.index.toNat + 2 ≤ 0xFFF → s.params.fontWrite = .fault → s.index.toNat ≤ 0x9F → 0x50 ≤ s.index.toNat + 2 →
      exec (.ldB x) s = .next (Recorded s (.ldB x) .fontWrite (max s.index.toNat 0x50))) ∧
    (s.index.toNat + 2 ≤ 0xFFF → (s.params.fontWrite = .allow ∨ 0x9F < s.index.toNat ∨ s.index.toNat + 2 < 0x50) →
      s.mem.wf = true →
      ∃ t, exec (.ldB x) s = .next t ∧ t.pc = s.pc + 2 ∧
        (Memory.read t.mem s.index.toNat).toNat = (s.reg x).toNat / 100 ∧
        (Memory.read t.mem (s.index.toNat + 1)).toNat = (s.reg x).toNat / 10 % 10 ∧
        (Memory.read t.mem (s.index.toNat + 2)).toNat = (s.reg x).toNat % 10 ∧
        (∀ a, a < s.index.toNat ∨ s.index.toNat + 2 < a → Memory.read t.mem a = Memory.read s.mem a) ∧
        KeepsAllBut [.memory] s t)

/-- LD [I], Vx: V0 to Vx at I to I+X, I kept; bounds, then font, then nothing written (R237). -/
def Obligations.RegisterDumpWritesV0ToVx : Prop :=
  ∀ (s : State) (x : Nibble), Encodes (0xF#4 ++ x ++ 0x55#8) (.ldMemV x) ∧
    (s.index.toNat + x.toNat > 0xFFF →
      exec (.ldMemV x) s = .next (Recorded s (.ldMemV x) .memoryBounds (max s.index.toNat 0x1000))) ∧
    (s.index.toNat + x.toNat ≤ 0xFFF → s.params.fontWrite = .fault → s.index.toNat ≤ 0x9F →
      0x50 ≤ s.index.toNat + x.toNat →
      exec (.ldMemV x) s = .next (Recorded s (.ldMemV x) .fontWrite (max s.index.toNat 0x50))) ∧
    (s.index.toNat + x.toNat ≤ 0xFFF →
      (s.params.fontWrite = .allow ∨ 0x9F < s.index.toNat ∨ s.index.toNat + x.toNat < 0x50) → s.mem.wf = true →
      ∃ t, exec (.ldMemV x) s = .next t ∧ t.pc = s.pc + 2 ∧
        (∀ r : Nibble, r.toNat ≤ x.toNat → Memory.read t.mem (s.index.toNat + r.toNat) = s.reg r) ∧
        (∀ a, a < s.index.toNat ∨ s.index.toNat + x.toNat < a → Memory.read t.mem a = Memory.read s.mem a) ∧
        KeepsAllBut [.memory] s t)

/-- LD Vx, [I]: V0 to Vx from I to I+X, the registers above kept, I kept; MEMORY_BOUNDS with no register written (R238). -/
def Obligations.RegisterLoadReadsV0ToVx : Prop :=
  ∀ (s : State) (x : Nibble), Encodes (0xF#4 ++ x ++ 0x65#8) (.ldVMem x) ∧
    (s.index.toNat + x.toNat > 0xFFF →
      exec (.ldVMem x) s = .next (Recorded s (.ldVMem x) .memoryBounds (max s.index.toNat 0x1000))) ∧
    (s.index.toNat + x.toNat ≤ 0xFFF →
      ∃ t, exec (.ldVMem x) s = .next t ∧ t.pc = s.pc + 2 ∧
        (∀ r : Nibble, r.toNat ≤ x.toNat → t.reg r = Memory.read s.mem (s.index.toNat + r.toNat)) ∧
        (∀ r : Nibble, x.toNat < r.toNat → t.reg r = s.reg r) ∧ KeepsAllBut [.registers] s t)

/-- Dump then load: with the same X and I and the dumped bytes unchanged, the load gives V0 to Vx back as the dump found them,
whatever the registers hold in between (R239). -/
def Obligations.DumpThenLoadRestoresTheRegisters : Prop :=
  ∀ (s t t' u : State) (x : Nibble), s.mem.wf = true → s.fault = none →
    exec (.ldMemV x) s = .next t → t.fault = none → t'.fault = none → t'.index = s.index →
    (∀ k, k ≤ x.toNat → Memory.read t'.mem (s.index.toNat + k) = Memory.read t.mem (s.index.toNat + k)) →
    exec (.ldVMem x) t' = .next u → u.fault = none ∧ ∀ r : Nibble, r.toNat ≤ x.toNat → u.reg r = s.reg r

/-- Self-modifying code: a word a register dump stores at the next pc is the word the next cycle fetches (20_memory R87). -/
def Obligations.StoredBytesAreFetchedNext : Prop :=
  ∀ (s t : State) (x r q : Nibble), s.mem.wf = true → s.fault = none → exec (.ldMemV x) s = .next t → t.fault = none →
    q.toNat = r.toNat + 1 → q.toNat ≤ x.toNat → t.pc.toNat = s.index.toNat + r.toNat →
    ∃ w, t.fetch = some w ∧ w.toNat = 256 * (s.reg r).toNat + (s.reg q).toNat

/-! ## Drawing -/

/-- DXYN where it completes: every pixel a set bit aims at is flipped, every other kept, VF = 1 iff one of them was lit,
under each SPRITE_EDGE and with the origin read before VF is written (43_draw R261, R263, R266; the drawing part of R260). -/
def Obligations.DrawFlipsTheAimedPixels : Prop :=
  ∀ (s : State) (x y n : Nibble), Encodes (0xD#4 ++ x ++ y ++ n) (.drw x y n) ∧
    ((n.toNat = 0 ∨ s.index.toNat + n.toNat ≤ 0x1000) →
      (s.params.spriteEdge = .literal → ∀ r c, SetBit s n r c → spriteIndex (s.reg x) (s.reg y) r c ≤ 2047) →
      ∃ t, exec (.drw x y n) s = .next t ∧ t.pc = s.pc + 2 ∧
        (∀ p, Drawn s x y n p → t.disp.lit p = !s.disp.lit p) ∧
        (∀ p, ¬ Drawn s x y n p → t.disp.lit p = s.disp.lit p) ∧
        ((∃ p, Drawn s x y n p ∧ s.disp.lit p = true) → t.reg 15 = 1) ∧
        (¬ (∃ p, Drawn s x y n p ∧ s.disp.lit p = true) → t.reg 15 = 0) ∧
        (∀ r, r ≠ 15 → t.reg r = s.reg r) ∧ KeepsAllBut [.registers, .screen] s t)

/-- SPRITE_EDGE decides where the set bits aim and whether the draw can fault on the display: only under Literal, only at a
set bit past pixel 2047, and only when the sprite lies in memory; where the draw completes, exactly the pixels aimed at
change (R262). -/
def Obligations.SpriteEdgeDecidesTheTargets : Prop :=
  ∀ (s t : State) (x y n : Nibble), s.fault = none → exec (.drw x y n) s = .next t →
    ((∃ r, t.fault = some r ∧ r.cause = .displayBounds) ↔
      s.index.toNat + n.toNat ≤ 0x1000 ∧ s.params.spriteEdge = .literal ∧
        ∃ r c, SetBit s n r c ∧ spriteIndex (s.reg x) (s.reg y) r c > 2047) ∧
    (t.fault = none → ∀ p, t.disp.lit p ≠ s.disp.lit p ↔ Drawn s x y n p)

/-- DXYN where it faults, nothing written: MEMORY_BOUNDS first, with the lowest failing row address; then, under Literal,
DISPLAY_BOUNDS with the index of the first set bit past pixel 2047, rows outer (R265). -/
def Obligations.DrawChecksMemoryThenDisplay : Prop :=
  ∀ (s : State) (x y n : Nibble),
    (n.toNat ≠ 0 → s.index.toNat + n.toNat > 0x1000 →
      exec (.drw x y n) s = .next (Recorded s (.drw x y n) .memoryBounds (max s.index.toNat 0x1000))) ∧
    (s.index.toNat + n.toNat ≤ 0x1000 → s.params.spriteEdge = .literal → ∀ r c, SetBit s n r c →
      spriteIndex (s.reg x) (s.reg y) r c > 2047 →
      (∀ r' c', SetBit s n r' c' → (r' < r ∨ (r' = r ∧ c' < c)) → spriteIndex (s.reg x) (s.reg y) r' c' ≤ 2047) →
      exec (.drw x y n) s =
        .next (Recorded s (.drw x y n) .displayBounds (spriteIndex (s.reg x) (s.reg y) r c)))

/-- Height 0: nothing read or drawn, VF = 0, no fault whatever I holds (R264). -/
def Obligations.DrawOfHeightZeroClearsVf : Prop :=
  ∀ (s : State) (x y : Nibble), ∃ t, exec (.drw x y 0) s = .next t ∧ t.pc = s.pc + 2 ∧ t.reg 15 = 0 ∧
    (∀ r, r ≠ 15 → t.reg r = s.reg r) ∧ KeepsAllBut [.registers] s t

/-- Drawing the same sprite twice at the same place restores the frame buffer, and VF is then 1 iff some set bit aims at a
pixel that was unlit before the first draw (R267). -/
def Obligations.DoubleDrawRestoresTheScreen : Prop :=
  ∀ (s t : State) (x y n : Nibble), x ≠ 15 → y ≠ 15 → s.fault = none →
    exec (.drw x y n) s = .next t → t.fault = none →
    ∃ u, exec (.drw x y n) t = .next u ∧ u.fault = none ∧ u.disp = s.disp ∧
      (u.reg 15 = 1 ↔ ∃ p, Drawn s x y n p ∧ s.disp.lit p = false)

/-! ## Input and timers -/

/-- SKP and SKNP: skip on the key's state; KEY_INDEX above 15 (44_input R290, R291). -/
def Obligations.KeySkipsTestTheLatch : Prop :=
  ∀ (s : State) (x : Nibble),
    (Encodes (0xE#4 ++ x ++ 0x9E#8) (.skp x) ∧ Encodes (0xE#4 ++ x ++ 0xA1#8) (.sknp x)) ∧
    ∀ p ∈ [(Instr.skp x, true), (.sknp x, false)],
      ((s.reg x).toNat > 15 → exec p.1 s = .next (Recorded s p.1 .keyIndex (s.reg x).toNat)) ∧
      ((h : (s.reg x).toNat < 16) → ∃ t, exec p.1 s = .next t ∧
        t.pc = (if s.key[(s.reg x).toNat] = p.2 then s.pc + 4 else s.pc + 2) ∧ KeepsAllBut [] s t)

/-- LD Vx, K: the least pressed key into Vx; with none pressed pc is the same again and nothing else changes (R292). -/
def Obligations.WaitForKeyTakesTheLeastKey : Prop :=
  ∀ (s : State) (x : Nibble), Encodes (0xF#4 ++ x ++ 0x0A#8) (.ldK x) ∧
    ((∀ k, (h : k < 16) → s.key[k] = false) →
      ∃ t, exec (.ldK x) s = .next t ∧ t.pc = s.pc ∧ KeepsAllBut [] s t) ∧
    (∀ k, (h : k < 16) → s.key[k] = true → (∀ j, (hj : j < k) → s.key[j] = false) →
      ∃ t, exec (.ldK x) s = .next t ∧ t.pc = s.pc + 2 ∧ (t.reg x).toNat = k ∧
        (∀ r, r ≠ x → t.reg r = s.reg r) ∧ KeepsAllBut [.registers] s t)

/-- Waiting in FX0A is a spin: with no key pressed, any number of cycles leaves pc there and changes only the timers (R294). -/
def Obligations.WaitingChangesOnlyTheTimers : Prop :=
  ∀ (k : Nat) (s : State) (w : Word) (x : Nibble), s.fault = none → s.fetch = some w → decodeWord w = .ldK x →
    (∀ j, (h : j < 16) → s.key[j] = false) →
    ∃ t, Host.Core.run core k s = .next t ∧ t.pc = s.pc ∧ KeepsAllBut [.delay, .sound] s t

/-- LD Vx, DT; LD DT, Vx; LD ST, Vx: plain transfers; FX07 reads before this cycle's tick, and after the tick of the same
cycle a set timer holds one less (45_timers R310 to R312). -/
def Obligations.TimerTransfers : Prop :=
  ∀ (s : State) (x : Nibble),
    (Encodes (0xF#4 ++ x ++ 0x07#8) (.ldVDt x) ∧ Encodes (0xF#4 ++ x ++ 0x15#8) (.ldDt x) ∧
      Encodes (0xF#4 ++ x ++ 0x18#8) (.ldSt x)) ∧
    (∃ t, exec (.ldVDt x) s = .next t ∧ t.pc = s.pc + 2 ∧ t.reg x = s.dt ∧ (∀ r, r ≠ x → t.reg r = s.reg r) ∧
      t.tick.dt.toNat = s.dt.toNat - 1 ∧ KeepsAllBut [.registers] s t) ∧
    (∃ t, exec (.ldDt x) s = .next t ∧ t.pc = s.pc + 2 ∧ t.dt = s.reg x ∧ t.tick.dt.toNat = (s.reg x).toNat - 1 ∧
      KeepsAllBut [.delay] s t) ∧
    (∃ t, exec (.ldSt x) s = .next t ∧ t.pc = s.pc + 2 ∧ t.st = s.reg x ∧ t.tick.st.toNat = (s.reg x).toNat - 1 ∧
      KeepsAllBut [.sound] s t)

/-- Counting: after k completed cycles with no FX15, DT = max(0, d - k); the same for ST with FX18 (R316). -/
def Obligations.TimersCountDownToZero : Prop :=
  ∀ (k : Nat) (s t : State),
    (Cycles (fun i => ∀ x, i ≠ .ldDt x) k s t → t.dt.toNat = s.dt.toNat - k) ∧
    (Cycles (fun i => ∀ x, i ≠ .ldSt x) k s t → t.st.toNat = s.st.toNat - k)

/-- CALL, then a RET that finds the stack as CALL left it: pc is the address after the call and sp its value before it
(40_control_flow R152). -/
def Obligations.CallThenReturnComesBack : Prop :=
  ∀ (s t t' u : State) (nnn : Addr) (n : Nibble), s.fault = none → exec (.call nnn) s = .next t → t.fault = none →
    t'.stack = t.stack → t'.sp = t.sp → t'.fault = none → exec (.ret n) t' = .next u →
    u.pc = s.pc + 2 ∧ u.sp = s.sp ∧ u.fault = none
end

