-- ==== Sys2Proof/Laws/Decode.lean ====
section
/-! SUPPORT. The fields of a word and the assembled layouts as numbers, and each field of each layout (30_encoding R107, R108). -/

namespace Sys2Proof

/-! ## Fields as numbers -/

theorem toNat_family (w : Word) : (family w).toNat = w.toNat / 4096 := by
  have := w.isLt
  simp [family, BitVec.extractLsb'_toNat, Nat.shiftRight_eq_div_pow]; omega

theorem toNat_fieldX (w : Word) : (fieldX w).toNat = w.toNat / 256 % 16 := by
  simp [fieldX, BitVec.extractLsb'_toNat, Nat.shiftRight_eq_div_pow]

theorem toNat_fieldY (w : Word) : (fieldY w).toNat = w.toNat / 16 % 16 := by
  simp [fieldY, BitVec.extractLsb'_toNat, Nat.shiftRight_eq_div_pow]

theorem toNat_fieldN (w : Word) : (fieldN w).toNat = w.toNat % 16 := by
  simp [fieldN, BitVec.extractLsb'_toNat]

theorem toNat_fieldNN (w : Word) : (fieldNN w).toNat = w.toNat % 256 := by
  simp [fieldNN, BitVec.extractLsb'_toNat]

theorem toNat_fieldNNN (w : Word) : (fieldNNN w).toNat = w.toNat % 4096 := by
  simp [fieldNNN, BitVec.extractLsb'_toNat]

/-! ## Layouts as numbers -/

theorem toNat_append_eq {n m : Nat} (a : BitVec n) (b : BitVec m) : (a ++ b).toNat = a.toNat * 2 ^ m + b.toNat := by
  rw [BitVec.toNat_append, ← Nat.shiftLeft_add_eq_or_of_lt b.isLt, Nat.shiftLeft_eq]

theorem toNat_formA (f : Nibble) (nnn : Addr) : (formA f nnn).toNat = f.toNat * 4096 + nnn.toNat :=
  toNat_append_eq f nnn

theorem toNat_formXNN (f x : Nibble) (nn : Byte) :
    (formXNN f x nn).toNat = f.toNat * 4096 + x.toNat * 256 + nn.toNat := by
  have h : (formXNN f x nn).toNat = (f ++ x).toNat * 2 ^ 8 + nn.toNat := toNat_append_eq (f ++ x) nn
  rw [h, toNat_append_eq]; omega

theorem toNat_formXYN (f x y n : Nibble) :
    (formXYN f x y n).toNat = f.toNat * 4096 + x.toNat * 256 + y.toNat * 16 + n.toNat := by
  have h : (formXYN f x y n).toNat = (f ++ x ++ y).toNat * 2 ^ 4 + n.toNat := toNat_append_eq (f ++ x ++ y) n
  rw [h, toNat_append_eq, toNat_append_eq]; omega

/-- A fetched word: the byte at the lower address is the high one (20_memory R72). -/
theorem toNat_wordOfBytes (hi lo : Byte) : (wordOfBytes hi lo).toNat = hi.toNat * 256 + lo.toNat :=
  toNat_append_eq hi lo

/-! ## Each field of each layout -/

section
variable (f x y n : Nibble) (nn : Byte) (nnn : Addr)

@[simp] theorem family_formA : family (formA f nnn) = f :=
  BitVec.eq_of_toNat_eq (by rw [toNat_family, toNat_formA]; omega)
@[simp] theorem fieldNNN_formA : fieldNNN (formA f nnn) = nnn :=
  BitVec.eq_of_toNat_eq (by rw [toNat_fieldNNN, toNat_formA]; omega)
@[simp] theorem fieldNN_formA : fieldNN (formA f nnn) = nnn.extractLsb' 0 8 :=
  BitVec.eq_of_toNat_eq (by rw [toNat_fieldNN, toNat_formA, BitVec.extractLsb'_toNat]; simp; omega)

@[simp] theorem family_formXNN : family (formXNN f x nn) = f :=
  BitVec.eq_of_toNat_eq (by rw [toNat_family, toNat_formXNN]; omega)
@[simp] theorem fieldX_formXNN : fieldX (formXNN f x nn) = x :=
  BitVec.eq_of_toNat_eq (by rw [toNat_fieldX, toNat_formXNN]; omega)
@[simp] theorem fieldNN_formXNN : fieldNN (formXNN f x nn) = nn :=
  BitVec.eq_of_toNat_eq (by rw [toNat_fieldNN, toNat_formXNN]; omega)

@[simp] theorem family_formXYN : family (formXYN f x y n) = f :=
  BitVec.eq_of_toNat_eq (by rw [toNat_family, toNat_formXYN]; omega)
@[simp] theorem fieldX_formXYN : fieldX (formXYN f x y n) = x :=
  BitVec.eq_of_toNat_eq (by rw [toNat_fieldX, toNat_formXYN]; omega)
@[simp] theorem fieldY_formXYN : fieldY (formXYN f x y n) = y :=
  BitVec.eq_of_toNat_eq (by rw [toNat_fieldY, toNat_formXYN]; omega)
@[simp] theorem fieldN_formXYN : fieldN (formXYN f x y n) = n :=
  BitVec.eq_of_toNat_eq (by rw [toNat_fieldN, toNat_formXYN]; omega)

end

/-! ## A word is each layout of its fields -/

theorem formA_fields (w : Word) : formA (family w) (fieldNNN w) = w :=
  BitVec.eq_of_toNat_eq (by rw [toNat_formA, toNat_family, toNat_fieldNNN]; omega)

theorem formXNN_fields (w : Word) : formXNN (family w) (fieldX w) (fieldNN w) = w :=
  BitVec.eq_of_toNat_eq (by rw [toNat_formXNN, toNat_family, toNat_fieldX, toNat_fieldNN]; omega)

theorem formXYN_fields (w : Word) : formXYN (family w) (fieldX w) (fieldY w) (fieldN w) = w :=
  BitVec.eq_of_toNat_eq (by rw [toNat_formXYN, toNat_family, toNat_fieldX, toNat_fieldY, toNat_fieldN]; omega)

/-- The two bytes of a word give the word back. -/
@[simp] theorem wordOfBytes_highByte_lowByte (w : Word) : wordOfBytes (highByte w) (lowByte w) = w := by
  apply BitVec.eq_of_toNat_eq
  have := w.isLt
  rw [toNat_wordOfBytes, highByte, lowByte, BitVec.extractLsb'_toNat, BitVec.extractLsb'_toNat]
  simp [Nat.shiftRight_eq_div_pow]
  omega

end Sys2Proof
end

