-- ==== Sys2Proof/Laws/Memory.lean ====
section
/-! SUPPORT. Memory: every operation keeps the canonical form; what a byte reads as after each operation. -/

namespace Sys2Proof.Machine

open Sys2Proof.Config

/-! ## The canonical form -/

theorem Memory.wfFrom_cons {lo a : Nat} {x : Byte} {m : Memory} :
    Memory.wfFrom lo ((a, x) :: m) = true ↔
      lo ≤ a ∧ a < memSize ∧ x ≠ Memory.initial a ∧ Memory.wfFrom (a + 1) m = true := by
  simp [Memory.wfFrom, and_assoc]

theorem Memory.wfFrom_mono {m : Memory} {lo lo' : Nat} (h : lo' ≤ lo) (hm : Memory.wfFrom lo m = true) :
    Memory.wfFrom lo' m = true := by
  cases m with
  | nil => rfl
  | cons c m =>
    obtain ⟨h1, h2⟩ := Memory.wfFrom_cons.1 hm
    exact Memory.wfFrom_cons.2 ⟨h.trans h1, h2⟩

theorem Memory.wfFrom_erase {m : Memory} {lo : Nat} (a : Nat) (hm : Memory.wfFrom lo m = true) :
    Memory.wfFrom lo (Memory.erase m a) = true := by
  induction m generalizing lo with
  | nil => rfl
  | cons c m ih =>
    obtain ⟨b, w⟩ := c
    obtain ⟨h1, h2, h3, h4⟩ := Memory.wfFrom_cons.1 hm
    unfold Memory.erase
    split
    · exact Memory.wfFrom_mono (by omega) h4
    · exact Memory.wfFrom_cons.2 ⟨h1, h2, h3, ih h4⟩

theorem Memory.wfFrom_insert {m : Memory} {lo a : Nat} {x : Byte} (hm : Memory.wfFrom lo m = true) (hlo : lo ≤ a)
    (ha : a < memSize) (hx : x ≠ Memory.initial a) : Memory.wfFrom lo (Memory.insert m a x) = true := by
  induction m generalizing lo with
  | nil => exact Memory.wfFrom_cons.2 ⟨hlo, ha, hx, rfl⟩
  | cons c m ih =>
    obtain ⟨b, w⟩ := c
    obtain ⟨h1, h2, h3, h4⟩ := Memory.wfFrom_cons.1 hm
    unfold Memory.insert
    split
    · exact Memory.wfFrom_cons.2 ⟨hlo, ha, hx, Memory.wfFrom_cons.2 ⟨by omega, h2, h3, h4⟩⟩
    · split
      · rename_i hab
        subst hab
        exact Memory.wfFrom_cons.2 ⟨hlo, ha, hx, h4⟩
      · exact Memory.wfFrom_cons.2 ⟨h1, h2, h3, ih h4 (by omega)⟩

/-- A write keeps the canonical form. -/
theorem Memory.wf_write {m : Memory} (a : Nat) (x : Byte) (hm : Memory.wf m = true) :
    Memory.wf (Memory.write m a x) = true := by
  unfold Memory.write
  split
  · split
    · exact Memory.wfFrom_erase a hm
    · exact Memory.wfFrom_insert hm (Nat.zero_le a) ‹_› ‹_›
  · exact hm

/-- So does a run of writes. -/
theorem Memory.wf_writeBytes {m : Memory} (a : Nat) (xs : List Byte) (hm : Memory.wf m = true) :
    Memory.wf (Memory.writeBytes m a xs) = true := by
  induction xs generalizing m a with
  | nil => exact hm
  | cons x xs ih => exact ih (a + 1) (Memory.wf_write a x hm)

/-- Reset memory, the empty list, has the form. -/
theorem Memory.wf_reset : Memory.wf State.reset.mem = true := rfl

/-! ## Reading -/

/-- Below the first listed address a byte is the initial one. -/
theorem Memory.read_below {m : Memory} {lo a : Nat} (hm : Memory.wfFrom lo m = true) (h : a < lo) :
    Memory.read m a = Memory.initial a := by
  induction m generalizing lo with
  | nil => rfl
  | cons c m ih =>
    obtain ⟨b, w⟩ := c
    obtain ⟨h1, _, _, h4⟩ := Memory.wfFrom_cons.1 hm
    have hb : a ≠ b := by omega
    simp only [Memory.read, if_neg hb]
    exact ih h4 (by omega)

theorem Memory.read_erase_other {m : Memory} {a b : Nat} (h : b ≠ a) :
    Memory.read (Memory.erase m a) b = Memory.read m b := by
  induction m with
  | nil => rfl
  | cons c m ih =>
    obtain ⟨k, w⟩ := c
    unfold Memory.erase
    split
    · rename_i hk
      simp only [Memory.read, if_neg (hk ▸ h : b ≠ k)]
    · simp only [Memory.read, ih]

theorem Memory.read_erase_self {m : Memory} {lo a : Nat} (hm : Memory.wfFrom lo m = true) :
    Memory.read (Memory.erase m a) a = Memory.initial a := by
  induction m generalizing lo with
  | nil => rfl
  | cons c m ih =>
    obtain ⟨k, w⟩ := c
    obtain ⟨_, _, _, h4⟩ := Memory.wfFrom_cons.1 hm
    unfold Memory.erase
    split
    · rename_i hk
      exact Memory.read_below h4 (by omega)
    · rename_i hk
      simp only [Memory.read, if_neg hk]
      exact ih h4

theorem Memory.read_insert {m : Memory} {a b : Nat} {x : Byte} :
    Memory.read (Memory.insert m a x) b = if b = a then x else Memory.read m b := by
  induction m with
  | nil => simp [Memory.insert, Memory.read]
  | cons c m ih =>
    obtain ⟨k, w⟩ := c
    unfold Memory.insert
    split
    · simp only [Memory.read]
    · split
      · rename_i hk
        subst hk
        simp only [Memory.read]
        split <;> rfl
      · rename_i hk
        simp only [Memory.read, ih]
        by_cases hb : b = k
        · simp [hb, Ne.symm hk]
        · simp [hb]

/-- A write leaves every other address alone (20_memory R82). -/
theorem Memory.read_write_other {m : Memory} {a b : Nat} {x : Byte} (h : b ≠ a) :
    Memory.read (Memory.write m a x) b = Memory.read m b := by
  unfold Memory.write
  split
  · split
    · exact Memory.read_erase_other h
    · rw [Memory.read_insert, if_neg h]
  · rfl

/-- A read after a write to the same address gives the byte written (R84). -/
theorem Memory.read_write_self {m : Memory} {a : Nat} {x : Byte} (hm : Memory.wf m = true) (ha : a < memSize) :
    Memory.read (Memory.write m a x) a = x := by
  unfold Memory.write
  rw [if_pos ha]
  split
  · rename_i hx
    rw [Memory.read_erase_self hm, hx]
  · rw [Memory.read_insert, if_pos rfl]

/-- A run of writes leaves every address outside the run alone. -/
theorem Memory.read_writeBytes_outside {m : Memory} {a b : Nat} {xs : List Byte} (h : b < a ∨ a + xs.length ≤ b) :
    Memory.read (Memory.writeBytes m a xs) b = Memory.read m b := by
  induction xs generalizing m a with
  | nil => rfl
  | cons x xs ih =>
    simp only [List.length_cons] at h
    simp only [Memory.writeBytes]
    rw [ih (by omega), Memory.read_write_other (by omega)]

/-- Inside the run each address reads its byte. -/
theorem Memory.read_writeBytes_inside {m : Memory} {a k : Nat} {xs : List Byte} (hm : Memory.wf m = true)
    (hk : k < xs.length) (ha : a + k < memSize) :
    Memory.read (Memory.writeBytes m a xs) (a + k) = xs[k] := by
  induction xs generalizing m a k with
  | nil => simp at hk
  | cons x xs ih =>
    simp only [Memory.writeBytes]
    cases k with
    | zero =>
      rw [Memory.read_writeBytes_outside (by omega)]
      simpa using Memory.read_write_self hm ha
    | succ k =>
      have e : a + (k + 1) = a + 1 + k := by omega
      rw [e, ih (Memory.wf_write a x hm) (by simpa using hk) (by omega)]
      simp

theorem Memory.length_readBytes (m : Memory) (a n : Nat) : (Memory.readBytes m a n).length = n := by
  simp [Memory.readBytes]

end Sys2Proof.Machine
end

