-- ==== Sys2Proof/Laws/State.lean ====
section
/-! SUPPORT. One lemma per field per state update, so that no proof unfolds a record update; and what a register reads as after
each update. -/

namespace Sys2Proof.Machine

variable (s : State)

/-! ## setReg -/

@[simp] theorem State.setReg_mem (x : Nibble) (b : Byte) : (s.setReg x b).mem = s.mem := rfl
@[simp] theorem State.setReg_v (x : Nibble) (b : Byte) : (s.setReg x b).v = s.v.set x.toNat b x.isLt := rfl
@[simp] theorem State.setReg_index (x : Nibble) (b : Byte) : (s.setReg x b).index = s.index := rfl
@[simp] theorem State.setReg_pc (x : Nibble) (b : Byte) : (s.setReg x b).pc = s.pc := rfl
@[simp] theorem State.setReg_stack (x : Nibble) (b : Byte) : (s.setReg x b).stack = s.stack := rfl
@[simp] theorem State.setReg_sp (x : Nibble) (b : Byte) : (s.setReg x b).sp = s.sp := rfl
@[simp] theorem State.setReg_dt (x : Nibble) (b : Byte) : (s.setReg x b).dt = s.dt := rfl
@[simp] theorem State.setReg_st (x : Nibble) (b : Byte) : (s.setReg x b).st = s.st := rfl
@[simp] theorem State.setReg_key (x : Nibble) (b : Byte) : (s.setReg x b).key = s.key := rfl
@[simp] theorem State.setReg_disp (x : Nibble) (b : Byte) : (s.setReg x b).disp = s.disp := rfl
@[simp] theorem State.setReg_rng (x : Nibble) (b : Byte) : (s.setReg x b).rng = s.rng := rfl
@[simp] theorem State.setReg_fault (x : Nibble) (b : Byte) : (s.setReg x b).fault = s.fault := rfl
@[simp] theorem State.setReg_params (x : Nibble) (b : Byte) : (s.setReg x b).params = s.params := rfl

/-! ## setPc -/

@[simp] theorem State.setPc_mem (a : Word) : (s.setPc a).mem = s.mem := rfl
@[simp] theorem State.setPc_v (a : Word) : (s.setPc a).v = s.v := rfl
@[simp] theorem State.setPc_index (a : Word) : (s.setPc a).index = s.index := rfl
@[simp] theorem State.setPc_pc (a : Word) : (s.setPc a).pc = a := rfl
@[simp] theorem State.setPc_stack (a : Word) : (s.setPc a).stack = s.stack := rfl
@[simp] theorem State.setPc_sp (a : Word) : (s.setPc a).sp = s.sp := rfl
@[simp] theorem State.setPc_dt (a : Word) : (s.setPc a).dt = s.dt := rfl
@[simp] theorem State.setPc_st (a : Word) : (s.setPc a).st = s.st := rfl
@[simp] theorem State.setPc_key (a : Word) : (s.setPc a).key = s.key := rfl
@[simp] theorem State.setPc_disp (a : Word) : (s.setPc a).disp = s.disp := rfl
@[simp] theorem State.setPc_rng (a : Word) : (s.setPc a).rng = s.rng := rfl
@[simp] theorem State.setPc_fault (a : Word) : (s.setPc a).fault = s.fault := rfl
@[simp] theorem State.setPc_params (a : Word) : (s.setPc a).params = s.params := rfl
@[simp] theorem State.setPc_reg (a : Word) (y : Nibble) : (s.setPc a).reg y = s.reg y := rfl

/-! ## advance -/

@[simp] theorem State.advance_mem : (s.advance).mem = s.mem := rfl
@[simp] theorem State.advance_v : (s.advance).v = s.v := rfl
@[simp] theorem State.advance_index : (s.advance).index = s.index := rfl
@[simp] theorem State.advance_pc : (s.advance).pc = s.pc + 2 := rfl
@[simp] theorem State.advance_stack : (s.advance).stack = s.stack := rfl
@[simp] theorem State.advance_sp : (s.advance).sp = s.sp := rfl
@[simp] theorem State.advance_dt : (s.advance).dt = s.dt := rfl
@[simp] theorem State.advance_st : (s.advance).st = s.st := rfl
@[simp] theorem State.advance_key : (s.advance).key = s.key := rfl
@[simp] theorem State.advance_disp : (s.advance).disp = s.disp := rfl
@[simp] theorem State.advance_rng : (s.advance).rng = s.rng := rfl
@[simp] theorem State.advance_fault : (s.advance).fault = s.fault := rfl
@[simp] theorem State.advance_params : (s.advance).params = s.params := rfl
@[simp] theorem State.advance_reg (y : Nibble) : (s.advance).reg y = s.reg y := rfl

/-! ## setIndex -/

@[simp] theorem State.setIndex_mem (a : Word) : (s.setIndex a).mem = s.mem := rfl
@[simp] theorem State.setIndex_v (a : Word) : (s.setIndex a).v = s.v := rfl
@[simp] theorem State.setIndex_index (a : Word) : (s.setIndex a).index = a := rfl
@[simp] theorem State.setIndex_pc (a : Word) : (s.setIndex a).pc = s.pc := rfl
@[simp] theorem State.setIndex_stack (a : Word) : (s.setIndex a).stack = s.stack := rfl
@[simp] theorem State.setIndex_sp (a : Word) : (s.setIndex a).sp = s.sp := rfl
@[simp] theorem State.setIndex_dt (a : Word) : (s.setIndex a).dt = s.dt := rfl
@[simp] theorem State.setIndex_st (a : Word) : (s.setIndex a).st = s.st := rfl
@[simp] theorem State.setIndex_key (a : Word) : (s.setIndex a).key = s.key := rfl
@[simp] theorem State.setIndex_disp (a : Word) : (s.setIndex a).disp = s.disp := rfl
@[simp] theorem State.setIndex_rng (a : Word) : (s.setIndex a).rng = s.rng := rfl
@[simp] theorem State.setIndex_fault (a : Word) : (s.setIndex a).fault = s.fault := rfl
@[simp] theorem State.setIndex_params (a : Word) : (s.setIndex a).params = s.params := rfl
@[simp] theorem State.setIndex_reg (a : Word) (y : Nibble) : (s.setIndex a).reg y = s.reg y := rfl

/-! ## takeFault -/

@[simp] theorem State.takeFault_mem (r : Raised) (o : Option Word) : (s.takeFault r o).mem = s.mem := rfl
@[simp] theorem State.takeFault_v (r : Raised) (o : Option Word) : (s.takeFault r o).v = s.v := rfl
@[simp] theorem State.takeFault_index (r : Raised) (o : Option Word) : (s.takeFault r o).index = s.index := rfl
@[simp] theorem State.takeFault_pc (r : Raised) (o : Option Word) : (s.takeFault r o).pc = s.pc := rfl
@[simp] theorem State.takeFault_stack (r : Raised) (o : Option Word) : (s.takeFault r o).stack = s.stack := rfl
@[simp] theorem State.takeFault_sp (r : Raised) (o : Option Word) : (s.takeFault r o).sp = s.sp := rfl
@[simp] theorem State.takeFault_dt (r : Raised) (o : Option Word) : (s.takeFault r o).dt = s.dt := rfl
@[simp] theorem State.takeFault_st (r : Raised) (o : Option Word) : (s.takeFault r o).st = s.st := rfl
@[simp] theorem State.takeFault_key (r : Raised) (o : Option Word) : (s.takeFault r o).key = s.key := rfl
@[simp] theorem State.takeFault_disp (r : Raised) (o : Option Word) : (s.takeFault r o).disp = s.disp := rfl
@[simp] theorem State.takeFault_rng (r : Raised) (o : Option Word) : (s.takeFault r o).rng = s.rng := rfl
@[simp] theorem State.takeFault_fault (r : Raised) (o : Option Word) : (s.takeFault r o).fault = some ⟨r.cause, s.pc, o, r.info⟩ := rfl
@[simp] theorem State.takeFault_params (r : Raised) (o : Option Word) : (s.takeFault r o).params = s.params := rfl
@[simp] theorem State.takeFault_reg (r : Raised) (o : Option Word) (y : Nibble) : (s.takeFault r o).reg y = s.reg y := rfl

/-! ## setDisp -/

@[simp] theorem State.setDisp_mem (d : Frame) : (s.setDisp d).mem = s.mem := rfl
@[simp] theorem State.setDisp_v (d : Frame) : (s.setDisp d).v = s.v := rfl
@[simp] theorem State.setDisp_index (d : Frame) : (s.setDisp d).index = s.index := rfl
@[simp] theorem State.setDisp_pc (d : Frame) : (s.setDisp d).pc = s.pc := rfl
@[simp] theorem State.setDisp_stack (d : Frame) : (s.setDisp d).stack = s.stack := rfl
@[simp] theorem State.setDisp_sp (d : Frame) : (s.setDisp d).sp = s.sp := rfl
@[simp] theorem State.setDisp_dt (d : Frame) : (s.setDisp d).dt = s.dt := rfl
@[simp] theorem State.setDisp_st (d : Frame) : (s.setDisp d).st = s.st := rfl
@[simp] theorem State.setDisp_key (d : Frame) : (s.setDisp d).key = s.key := rfl
@[simp] theorem State.setDisp_disp (d : Frame) : (s.setDisp d).disp = d := rfl
@[simp] theorem State.setDisp_rng (d : Frame) : (s.setDisp d).rng = s.rng := rfl
@[simp] theorem State.setDisp_fault (d : Frame) : (s.setDisp d).fault = s.fault := rfl
@[simp] theorem State.setDisp_params (d : Frame) : (s.setDisp d).params = s.params := rfl
@[simp] theorem State.setDisp_reg (d : Frame) (y : Nibble) : (s.setDisp d).reg y = s.reg y := rfl

/-! ## setDt -/

@[simp] theorem State.setDt_mem (b : Byte) : (s.setDt b).mem = s.mem := rfl
@[simp] theorem State.setDt_v (b : Byte) : (s.setDt b).v = s.v := rfl
@[simp] theorem State.setDt_index (b : Byte) : (s.setDt b).index = s.index := rfl
@[simp] theorem State.setDt_pc (b : Byte) : (s.setDt b).pc = s.pc := rfl
@[simp] theorem State.setDt_stack (b : Byte) : (s.setDt b).stack = s.stack := rfl
@[simp] theorem State.setDt_sp (b : Byte) : (s.setDt b).sp = s.sp := rfl
@[simp] theorem State.setDt_dt (b : Byte) : (s.setDt b).dt = b := rfl
@[simp] theorem State.setDt_st (b : Byte) : (s.setDt b).st = s.st := rfl
@[simp] theorem State.setDt_key (b : Byte) : (s.setDt b).key = s.key := rfl
@[simp] theorem State.setDt_disp (b : Byte) : (s.setDt b).disp = s.disp := rfl
@[simp] theorem State.setDt_rng (b : Byte) : (s.setDt b).rng = s.rng := rfl
@[simp] theorem State.setDt_fault (b : Byte) : (s.setDt b).fault = s.fault := rfl
@[simp] theorem State.setDt_params (b : Byte) : (s.setDt b).params = s.params := rfl
@[simp] theorem State.setDt_reg (b : Byte) (y : Nibble) : (s.setDt b).reg y = s.reg y := rfl

/-! ## setSt -/

@[simp] theorem State.setSt_mem (b : Byte) : (s.setSt b).mem = s.mem := rfl
@[simp] theorem State.setSt_v (b : Byte) : (s.setSt b).v = s.v := rfl
@[simp] theorem State.setSt_index (b : Byte) : (s.setSt b).index = s.index := rfl
@[simp] theorem State.setSt_pc (b : Byte) : (s.setSt b).pc = s.pc := rfl
@[simp] theorem State.setSt_stack (b : Byte) : (s.setSt b).stack = s.stack := rfl
@[simp] theorem State.setSt_sp (b : Byte) : (s.setSt b).sp = s.sp := rfl
@[simp] theorem State.setSt_dt (b : Byte) : (s.setSt b).dt = s.dt := rfl
@[simp] theorem State.setSt_st (b : Byte) : (s.setSt b).st = b := rfl
@[simp] theorem State.setSt_key (b : Byte) : (s.setSt b).key = s.key := rfl
@[simp] theorem State.setSt_disp (b : Byte) : (s.setSt b).disp = s.disp := rfl
@[simp] theorem State.setSt_rng (b : Byte) : (s.setSt b).rng = s.rng := rfl
@[simp] theorem State.setSt_fault (b : Byte) : (s.setSt b).fault = s.fault := rfl
@[simp] theorem State.setSt_params (b : Byte) : (s.setSt b).params = s.params := rfl
@[simp] theorem State.setSt_reg (b : Byte) (y : Nibble) : (s.setSt b).reg y = s.reg y := rfl

/-! ## tick -/

@[simp] theorem State.tick_mem : (s.tick).mem = s.mem := rfl
@[simp] theorem State.tick_v : (s.tick).v = s.v := rfl
@[simp] theorem State.tick_index : (s.tick).index = s.index := rfl
@[simp] theorem State.tick_pc : (s.tick).pc = s.pc := rfl
@[simp] theorem State.tick_stack : (s.tick).stack = s.stack := rfl
@[simp] theorem State.tick_sp : (s.tick).sp = s.sp := rfl
@[simp] theorem State.tick_dt : (s.tick).dt = countDown s.dt := rfl
@[simp] theorem State.tick_st : (s.tick).st = countDown s.st := rfl
@[simp] theorem State.tick_key : (s.tick).key = s.key := rfl
@[simp] theorem State.tick_disp : (s.tick).disp = s.disp := rfl
@[simp] theorem State.tick_rng : (s.tick).rng = s.rng := rfl
@[simp] theorem State.tick_fault : (s.tick).fault = s.fault := rfl
@[simp] theorem State.tick_params : (s.tick).params = s.params := rfl
@[simp] theorem State.tick_reg (y : Nibble) : (s.tick).reg y = s.reg y := rfl

/-! ## afterDraw -/

@[simp] theorem State.afterDraw_mem : (s.afterDraw).mem = s.mem := rfl
@[simp] theorem State.afterDraw_v : (s.afterDraw).v = s.v := rfl
@[simp] theorem State.afterDraw_index : (s.afterDraw).index = s.index := rfl
@[simp] theorem State.afterDraw_pc : (s.afterDraw).pc = s.pc := rfl
@[simp] theorem State.afterDraw_stack : (s.afterDraw).stack = s.stack := rfl
@[simp] theorem State.afterDraw_sp : (s.afterDraw).sp = s.sp := rfl
@[simp] theorem State.afterDraw_dt : (s.afterDraw).dt = s.dt := rfl
@[simp] theorem State.afterDraw_st : (s.afterDraw).st = s.st := rfl
@[simp] theorem State.afterDraw_key : (s.afterDraw).key = s.key := rfl
@[simp] theorem State.afterDraw_disp : (s.afterDraw).disp = s.disp := rfl
@[simp] theorem State.afterDraw_rng : (s.afterDraw).rng = ⟨s.rng.seed, s.rng.drawn + 1⟩ := rfl
@[simp] theorem State.afterDraw_fault : (s.afterDraw).fault = s.fault := rfl
@[simp] theorem State.afterDraw_params : (s.afterDraw).params = s.params := rfl
@[simp] theorem State.afterDraw_reg (y : Nibble) : (s.afterDraw).reg y = s.reg y := rfl

/-! ## skipIf -/

@[simp] theorem State.skipIf_mem (c : Bool) : (s.skipIf c).mem = s.mem := by cases c <;> rfl
@[simp] theorem State.skipIf_v (c : Bool) : (s.skipIf c).v = s.v := by cases c <;> rfl
@[simp] theorem State.skipIf_index (c : Bool) : (s.skipIf c).index = s.index := by cases c <;> rfl
@[simp] theorem State.skipIf_pc (c : Bool) : (s.skipIf c).pc = if c then s.pc + 2 else s.pc := by
  cases c <;> rfl
@[simp] theorem State.skipIf_stack (c : Bool) : (s.skipIf c).stack = s.stack := by cases c <;> rfl
@[simp] theorem State.skipIf_sp (c : Bool) : (s.skipIf c).sp = s.sp := by cases c <;> rfl
@[simp] theorem State.skipIf_dt (c : Bool) : (s.skipIf c).dt = s.dt := by cases c <;> rfl
@[simp] theorem State.skipIf_st (c : Bool) : (s.skipIf c).st = s.st := by cases c <;> rfl
@[simp] theorem State.skipIf_key (c : Bool) : (s.skipIf c).key = s.key := by cases c <;> rfl
@[simp] theorem State.skipIf_disp (c : Bool) : (s.skipIf c).disp = s.disp := by cases c <;> rfl
@[simp] theorem State.skipIf_rng (c : Bool) : (s.skipIf c).rng = s.rng := by cases c <;> rfl
@[simp] theorem State.skipIf_fault (c : Bool) : (s.skipIf c).fault = s.fault := by cases c <;> rfl
@[simp] theorem State.skipIf_params (c : Bool) : (s.skipIf c).params = s.params := by cases c <;> rfl
@[simp] theorem State.skipIf_reg (c : Bool) (y : Nibble) : (s.skipIf c).reg y = s.reg y := by cases c <;> rfl

/-! ## What a register reads as after a register write -/

/-- Register write and read (10_state R31). -/
@[simp] theorem State.setReg_reg (x : Nibble) (b : Byte) (y : Nibble) :
    (s.setReg x b).reg y = if y = x then b else s.reg y := by
  simp only [State.setReg, State.reg, Vector.getElem_set, BitVec.toNat_inj]
  by_cases h : y = x
  · simp [h]
  · simp [h, Ne.symm h]

/-- The flag is written first, so the result stays when X = 15 (41_register_alu R182). -/
@[simp] theorem State.setFlagThenReg_reg (x : Nibble) (f r : Byte) (y : Nibble) :
    (s.setFlagThenReg x f r).reg y = if y = x then r else if y = vf then f else s.reg y := by
  simp only [State.setFlagThenReg, State.setReg_reg]

/-! ## setFlagThenReg -/

@[simp] theorem State.setFlagThenReg_mem (x : Nibble) (a r : Byte) : (s.setFlagThenReg x a r).mem = s.mem := rfl
@[simp] theorem State.setFlagThenReg_index (x : Nibble) (a r : Byte) : (s.setFlagThenReg x a r).index = s.index := rfl
@[simp] theorem State.setFlagThenReg_pc (x : Nibble) (a r : Byte) : (s.setFlagThenReg x a r).pc = s.pc := rfl
@[simp] theorem State.setFlagThenReg_stack (x : Nibble) (a r : Byte) : (s.setFlagThenReg x a r).stack = s.stack := rfl
@[simp] theorem State.setFlagThenReg_sp (x : Nibble) (a r : Byte) : (s.setFlagThenReg x a r).sp = s.sp := rfl
@[simp] theorem State.setFlagThenReg_dt (x : Nibble) (a r : Byte) : (s.setFlagThenReg x a r).dt = s.dt := rfl
@[simp] theorem State.setFlagThenReg_st (x : Nibble) (a r : Byte) : (s.setFlagThenReg x a r).st = s.st := rfl
@[simp] theorem State.setFlagThenReg_key (x : Nibble) (a r : Byte) : (s.setFlagThenReg x a r).key = s.key := rfl
@[simp] theorem State.setFlagThenReg_disp (x : Nibble) (a r : Byte) : (s.setFlagThenReg x a r).disp = s.disp := rfl
@[simp] theorem State.setFlagThenReg_rng (x : Nibble) (a r : Byte) : (s.setFlagThenReg x a r).rng = s.rng := rfl
@[simp] theorem State.setFlagThenReg_fault (x : Nibble) (a r : Byte) : (s.setFlagThenReg x a r).fault = s.fault := rfl
@[simp] theorem State.setFlagThenReg_params (x : Nibble) (a r : Byte) : (s.setFlagThenReg x a r).params = s.params := rfl

end Sys2Proof.Machine
end

