-- ==== Sys2Proof/Laws/Ops.lean ====
section
/-! SUPPORT. One lemma per shared operation that says everything it can do. -/

namespace Sys2Proof.Machine

open Sys2Proof.Config

/-! ## The shape of an instruction -/

/-- A handler that completes gives its state. -/
@[simp] theorem execute_ok {i : Instr} {s t : State} {h : State → Except Raised State} (e : h s.advance = .ok t) :
    execute i s h = .next t := by
  simp only [execute, e]

/-- A handler that faults leaves the start state with the record (60_exceptions R334). -/
@[simp] theorem execute_error {i : Instr} {s : State} {r : Raised} {h : State → Except Raised State}
    (e : h s.advance = .error r) : execute i s h = .next (s.takeFault r (some (encode i))) := by
  simp only [execute, e]

/-- Everything `execute` can do. -/
theorem execute_cases (i : Instr) (s : State) (h : State → Except Raised State) :
    (∃ t, h s.advance = .ok t ∧ execute i s h = .next t) ∨
    (∃ r, h s.advance = .error r ∧ execute i s h = .next (s.takeFault r (some (encode i)))) := by
  cases e : h s.advance with
  | ok t => exact .inl ⟨t, rfl, execute_ok e⟩
  | error r => exact .inr ⟨r, rfl, execute_error e⟩

@[simp] theorem complete_eq (s : State) (h : State → State) : complete s h = .next (h s.advance) := rfl

/-! ## Stack -/

/-- Push: a fault with nothing written, or the entry at the old `sp` (10_state R37). -/
theorem State.push_cases (s : State) (a : Word) :
    (s.sp.val = 16 ∧ s.push a = .error ⟨.stackOverflow, 16⟩) ∨
    (∃ h : s.sp.val < 16,
      s.push a = .ok { s with stack := s.stack.set s.sp.val a h, sp := ⟨s.sp.val + 1, by omega⟩ }) := by
  by_cases h : s.sp.val < 16
  · exact .inr ⟨h, by simp only [State.push, dif_pos h]⟩
  · exact .inl ⟨by omega, by simp only [State.push, dif_neg h]⟩

/-- Pop: a fault, or pc is the entry below the old `sp` (10_state R37). -/
theorem State.popPc_cases (s : State) :
    (s.sp.val = 0 ∧ s.popPc = .error ⟨.stackUnderflow, 0⟩) ∨
    (∃ _h : s.sp.val ≠ 0,
      s.popPc = .ok { s with pc := s.stack[s.sp.val - 1]'(by omega), sp := ⟨s.sp.val - 1, by omega⟩ }) := by
  by_cases h : s.sp.val = 0
  · exact .inl ⟨h, by simp only [State.popPc, dif_pos h]⟩
  · exact .inr ⟨h, by simp only [State.popPc, dif_neg h]⟩

/-! ## Screen -/

/-- A toggle flips its pixel and no other (43_draw R263). -/
theorem Frame.lit_toggle {d : Frame} {p : Nat} (hp : p < 2048) (q : Nat) :
    Frame.lit (Frame.toggle d p) q = if q = p then !Frame.lit d p else Frame.lit d q := by
  have e : Frame.toggle d p =
      d.set (p / 64) ((d[p / 64]'(by omega)).set (p % 64) (!Frame.lit d p) (by omega)) (by omega) := by
    simp only [Frame.toggle, dif_pos hp]
  rw [e]
  by_cases hq : q < 2048
  · by_cases hpq : q = p
    · subst hpq
      simp [Frame.lit, hq]
    · simp only [Frame.lit, dif_pos hq, if_neg hpq]
      by_cases h1 : p / 64 = q / 64
      · have h2 : p % 64 ≠ q % 64 := by omega
        simp [h1, h2]
      · simp [h1]
  · have hpq : q ≠ p := by omega
    simp [Frame.lit, hq, hpq]

/-- There is no pixel past 2047. -/
theorem Frame.lit_past {d : Frame} {p : Nat} (hp : ¬ p < 2048) : Frame.lit d p = false := by
  simp only [Frame.lit, dif_neg hp]

/-- Frames with the same pixels are the same frame. -/
theorem Frame.ext_lit {d e : Frame} (h : ∀ p, p < 2048 → Frame.lit d p = Frame.lit e p) : d = e := by
  ext i hi j hj
  have := h (i * 64 + j) (by omega)
  have h1 : (i * 64 + j) / 64 = i := by omega
  have h2 : (i * 64 + j) % 64 = j := by omega
  have h3 : i * 64 + j < 2048 := by omega
  simpa only [Frame.lit, dif_pos h3, h1, h2] using this

theorem Frame.lit_blank (p : Nat) : Frame.lit Frame.blank p = false := by
  simp [Frame.lit, Frame.blank]

/-! ## Timers -/

/-- The countdown saturates at 0 (45_timers R314). -/
theorem toNat_countDown (t : Byte) : (countDown t).toNat = t.toNat - 1 := by
  unfold countDown
  split
  · rename_i h
    simp [h]
  · rename_i h
    have : t.toNat ≠ 0 := fun e => h (BitVec.eq_of_toNat_eq (by simpa using e))
    bv_omega

/-! ## Checks before access (42_memory_index R231) -/

theorem mem_operandAddrs {i0 n a : Nat} : a ∈ operandAddrs i0 n ↔ i0 ≤ a ∧ a < i0 + n := by
  simp only [operandAddrs, List.mem_map, List.mem_range]
  exact ⟨fun ⟨k, h1, h2⟩ => by omega, fun h => ⟨a - i0, by omega, by omega⟩⟩

/-- The first operand address at or after `lo` that satisfies a test which holds exactly from `lo` on inside the run. -/
theorem find_operandAddrs {i0 n lo : Nat} {p : Nat → Bool} (hp : ∀ a, i0 ≤ a → a < i0 + n → a < lo → p a = false)
    (h1 : i0 ≤ lo) (h2 : lo < i0 + n) (hlo : p lo = true) : (operandAddrs i0 n).find? p = some lo := by
  rw [List.find?_eq_some_iff_getElem]
  refine ⟨hlo, lo - i0, by simpa [operandAddrs] using by omega, ?_, fun j hj => ?_⟩
  · simp [operandAddrs]; omega
  · simp only [operandAddrs, List.getElem_map, List.getElem_range, Bool.not_eq_true']
    exact hp _ (by omega) (by omega) (by omega)

/-- The bounds check passes exactly when no byte lies above 0xFFF. -/
theorem checkRead_eq (i0 n : Nat) :
    checkRead i0 n = if n = 0 ∨ i0 + n ≤ 4096 then none else some ⟨.memoryBounds, max i0 4096⟩ := by
  unfold checkRead
  split
  · rename_i a ha
    obtain ⟨h1, h2⟩ := mem_operandAddrs.1 (List.mem_of_find?_eq_some ha)
    have h3 : a > 0xFFF := by simpa using List.find?_some ha
    rw [if_neg (by omega)]
    have := find_operandAddrs (i0 := i0) (n := n) (lo := max i0 4096) (p := fun a => decide (a > 0xFFF))
      (fun a _ _ _ => by simp; omega) (by omega) (by omega) (by simp)
    rw [ha] at this
    simpa using this
  · rename_i h
    rw [if_pos]
    by_contra hc
    have := List.find?_eq_none.1 h (i0 + n - 1) (mem_operandAddrs.2 (by omega))
    simp at this
    omega

/-- The font check passes exactly when it is off or no byte lies in 0x50 to 0x9F. -/
theorem checkFont_eq (fw : FontWrite) (i0 n : Nat) :
    checkFont fw i0 n =
      if fw = .fault ∧ i0 < 0xA0 ∧ 0x50 < i0 + n ∧ n ≠ 0 then some ⟨.fontWrite, max i0 0x50⟩ else none := by
  cases fw with
  | allow => simp [checkFont]
  | fault =>
    simp only [checkFont, true_and]
    split
    · rename_i a ha
      obtain ⟨h1, h2⟩ := mem_operandAddrs.1 (List.mem_of_find?_eq_some ha)
      have h3 : 0x50 ≤ a ∧ a < 0xA0 := by simpa [inFont, fontBase, fontEnd] using List.find?_some ha
      rw [if_pos (by omega)]
      have := find_operandAddrs (i0 := i0) (n := n) (lo := max i0 0x50) (p := inFont)
        (fun a _ _ _ => by simp [inFont, fontBase, fontEnd]; omega) (by omega) (by omega)
        (by simp [inFont, fontBase, fontEnd]; omega)
      rw [ha] at this
      simpa using this
    · rename_i h
      rw [if_neg]
      intro hc
      have := List.find?_eq_none.1 h (max i0 0x50) (mem_operandAddrs.2 (by omega))
      simp [inFont, fontBase, fontEnd] at this
      omega

/-- Storing at I: bounds, then font, then the bytes (R231, R236, R237). -/
theorem State.storeAtIndex_eq (s : State) (bs : List Byte) (hb : bs ≠ []) :
    s.storeAtIndex bs =
      if 4096 < s.index.toNat + bs.length then .error ⟨.memoryBounds, max s.index.toNat 4096⟩
      else if s.params.fontWrite = .fault ∧ s.index.toNat < 0xA0 ∧ 0x50 < s.index.toNat + bs.length then
        .error ⟨.fontWrite, max s.index.toNat 0x50⟩
      else .ok { s with mem := Memory.writeBytes s.mem s.index.toNat bs } := by
  have hl : bs.length ≠ 0 := by simpa using hb
  unfold State.storeAtIndex checkWrite
  rw [checkRead_eq]
  by_cases h : 4096 < s.index.toNat + bs.length
  · rw [if_neg (by omega), if_pos h]
  · rw [if_pos (by omega), if_neg h]
    by_cases hf : s.params.fontWrite = .fault ∧ s.index.toNat < 0xA0 ∧ 0x50 < s.index.toNat + bs.length
    · rw [if_pos hf, checkFont_eq, if_pos ⟨hf.1, hf.2.1, hf.2.2, hl⟩]
    · rw [if_neg hf, checkFont_eq, if_neg fun h => hf ⟨h.1, h.2.1, h.2.2.1⟩]

/-- Loading from I: bounds, then the registers (R238). -/
theorem State.loadFromIndex_eq (s : State) (x : Nibble) :
    s.loadFromIndex x =
      if 4096 < s.index.toNat + (x.toNat + 1) then .error ⟨.memoryBounds, max s.index.toNat 4096⟩
      else .ok { s with v := loadedRegs s.v s.mem s.index.toNat x } := by
  unfold State.loadFromIndex
  rw [checkRead_eq]
  by_cases h : 4096 < s.index.toNat + (x.toNat + 1)
  · rw [if_neg (by omega), if_pos h]
  · rw [if_pos (by omega), if_neg h]

/-- What a register reads as after the load (R238). -/
theorem reg_loadedRegs (s : State) (x r : Nibble) :
    ({ s with v := loadedRegs s.v s.mem s.index.toNat x } : State).reg r =
      if r.toNat ≤ x.toNat then Memory.read s.mem (s.index.toNat + r.toNat) else s.reg r := by
  simp [State.reg, loadedRegs]

/-- The dumped registers in order (R237). -/
theorem length_regsTo (s : State) (x : Nibble) : (s.regsTo x).length = x.toNat + 1 := by
  have := x.isLt
  simp [State.regsTo]
  omega

theorem getElem_regsTo (s : State) (x : Nibble) (k : Nat) (h : k < (s.regsTo x).length) :
    (s.regsTo x)[k]'h = s.v[k]'(by rw [length_regsTo] at h; have := x.isLt; omega) := by
  simp [State.regsTo]

/-! ## Input -/

/-- The least key found is pressed and no smaller one is (44_input R292). -/
theorem State.leastKey_cases (s : State) :
    (s.leastKey = none ∧ ∀ k, s.pressed k = false) ∨
    (∃ k, k < 16 ∧ s.leastKey = some k ∧ s.pressed k = true ∧ ∀ j, j < k → s.pressed j = false) := by
  cases h : s.leastKey with
  | none =>
    refine .inl ⟨rfl, fun k => ?_⟩
    by_cases hk : k < 16
    · simpa using List.find?_eq_none.1 h k (List.mem_range.2 hk)
    · simp only [State.pressed, dif_neg hk]
  | some k =>
    obtain ⟨h1, j, hj, h2, h3⟩ := List.find?_eq_some_iff_getElem.1 h
    simp only [List.length_range] at hj
    simp only [List.getElem_range] at h2 h3
    subst h2
    exact .inr ⟨j, hj, rfl, h1, fun i hi => by simpa using h3 i hi⟩

end Sys2Proof.Machine
end

