-- ==== Sys2Proof/Laws/Draw.lean ====
section
/-! SUPPORT. The sprite engine: which bits are drawn, in which order, what they aim at, and what drawing does (43_draw). -/

namespace Sys2Proof.Machine

open Sys2Proof.Config

/-- Bit (r, c) comes before bit (r', c'): rows outer, columns inner (R260). -/
def bitBefore (p q : Nat × Nat) : Prop := p.1 < q.1 ∨ (p.1 = q.1 ∧ p.2 < q.2)

theorem mem_rowBits {r : Nat} {b : Byte} {p : Nat × Nat} :
    p ∈ rowBits r b ↔ p.1 = r ∧ p.2 < 8 ∧ b.getLsbD (7 - p.2) = true := by
  simp only [rowBits, List.mem_map, List.mem_filter, List.mem_range]
  constructor
  · rintro ⟨c, ⟨h1, h2⟩, rfl⟩
    exact ⟨rfl, h1, h2⟩
  · rintro ⟨rfl, h1, h2⟩
    exact ⟨p.2, ⟨h1, h2⟩, rfl⟩

/-- The set bits: row in range, column below 8, and bit 7 - c of the row's byte set. -/
theorem mem_spriteBits {r0 : Nat} {bs : List Byte} {p : Nat × Nat} :
    p ∈ spriteBits r0 bs ↔
      r0 ≤ p.1 ∧ p.2 < 8 ∧ ∃ h : p.1 - r0 < bs.length, (bs[p.1 - r0]'h).getLsbD (7 - p.2) = true := by
  induction bs generalizing r0 with
  | nil => simp [spriteBits]
  | cons b bs ih =>
    simp only [spriteBits, List.mem_append, mem_rowBits, ih]
    constructor
    · rintro (⟨h1, h2, h3⟩ | ⟨h1, h2, h3, h4⟩)
      · refine ⟨by omega, h2, by simp; omega, ?_⟩
        have : p.1 - r0 = 0 := by omega
        simpa [this] using h3
      · have e : p.1 - r0 = p.1 - (r0 + 1) + 1 := by omega
        exact ⟨by omega, h2, by simp; omega, by simpa [e] using h4⟩
    · rintro ⟨h1, h2, h3, h4⟩
      by_cases e : p.1 = r0
      · left
        have : p.1 - r0 = 0 := by omega
        exact ⟨e, h2, by simpa [this] using h4⟩
      · right
        have e' : p.1 - r0 = p.1 - (r0 + 1) + 1 := by omega
        simp only [List.length_cons] at h3
        exact ⟨by omega, h2, by omega, by simpa [e'] using h4⟩

theorem pairwise_rowBits (r : Nat) (b : Byte) : (rowBits r b).Pairwise bitBefore := by
  refine List.Pairwise.map _ (fun _ _ h => .inr ⟨rfl, h⟩) ?_
  exact List.Pairwise.filter _ List.pairwise_lt_range

/-- The set bits come in drawing order (R260). -/
theorem pairwise_spriteBits (r0 : Nat) (bs : List Byte) : (spriteBits r0 bs).Pairwise bitBefore := by
  induction bs generalizing r0 with
  | nil => exact List.Pairwise.nil
  | cons b bs ih =>
    refine List.pairwise_append.2 ⟨pairwise_rowBits r0 b, ih (r0 + 1), fun p hp q hq => .inl ?_⟩
    have h1 := (mem_rowBits.1 hp).1
    have h2 := (mem_spriteBits.1 hq).1
    omega

/-- Every target is a pixel of the screen when the origin is. -/
theorem spriteTarget_lt {e : SpriteEdge} {x0 y0 r c p : Nat}
    (h : spriteTarget e x0 y0 r c = .pixel p) : p < 2048 := by
  cases e with
  | literal =>
    simp only [spriteTarget] at h
    split at h
    · cases h; omega
    · cases h
  | clip =>
    simp only [spriteTarget] at h
    split at h
    · cases h; simp only [linearIndex]; omega
    · cases h
  | wrap =>
    simp only [spriteTarget] at h
    cases h
    omega

/-- Distinct bits of one sprite aim at distinct pixels (R263). -/
theorem spriteTarget_inj {e : SpriteEdge} {x0 y0 r c r' c' p : Nat} (hr : r < 32) (hr' : r' < 32) (hc : c < 8)
    (hc' : c' < 8) (h : spriteTarget e x0 y0 r c = .pixel p) (h' : spriteTarget e x0 y0 r' c' = .pixel p) :
    r = r' ∧ c = c' := by
  cases e with
  | literal =>
    simp only [spriteTarget, ite_eq_iff, Target.pixel.injEq, reduceCtorEq, and_false, or_false] at h h'
    simp only [linearIndex] at h h'
    omega
  | clip =>
    simp only [spriteTarget, ite_eq_iff, Target.pixel.injEq, reduceCtorEq, and_false, or_false] at h h'
    simp only [linearIndex] at h h'
    omega
  | wrap =>
    simp only [spriteTarget, Target.pixel.injEq] at h h'
    omega

theorem mem_targetPixels {e : SpriteEdge} {x0 y0 p : Nat} {bits : List (Nat × Nat)} :
    p ∈ targetPixels e x0 y0 bits ↔ ∃ b ∈ bits, spriteTarget e x0 y0 b.1 b.2 = .pixel p := by
  induction bits with
  | nil => simp [targetPixels]
  | cons b bs ih =>
    simp only [targetPixels, List.mem_cons, exists_eq_or_imp]
    split <;> rename_i h <;> simp [h, ih, eq_comm]

/-- The pixels of one sprite are all different (R263), for sprites of the heights there are. -/
theorem nodup_targetPixels {e : SpriteEdge} {x0 y0 : Nat} {bits : List (Nat × Nat)} (hp : bits.Pairwise bitBefore)
    (hb : ∀ b ∈ bits, b.1 < 32 ∧ b.2 < 8) : (targetPixels e x0 y0 bits).Nodup := by
  induction bits with
  | nil => exact List.nodup_nil
  | cons b bs ih =>
    obtain ⟨h1, h2⟩ := List.pairwise_cons.1 hp
    have ih := ih h2 fun q hq => hb q (List.mem_cons_of_mem _ hq)
    simp only [targetPixels]
    split
    · rename_i p h
      refine List.nodup_cons.2 ⟨fun hm => ?_, ih⟩
      obtain ⟨q, hq, hq'⟩ := mem_targetPixels.1 hm
      have b1 := hb b List.mem_cons_self
      have b2 := hb q (List.mem_cons_of_mem _ hq)
      have := spriteTarget_inj b1.1 b2.1 b1.2 b2.2 h hq'
      have := h1 q hq
      simp only [bitBefore] at this
      omega
    · exact ih
    · exact ih

/-- What drawing different pixels does: each is flipped once, no other changes, and the flag says whether one was lit. -/
theorem drawPixels_spec {d : Frame} {hit : Bool} {ps : List Nat} (hn : ps.Nodup) (hp : ∀ p ∈ ps, p < 2048) :
    (∀ q, Frame.lit (drawPixels d hit ps).1 q = if q ∈ ps then !Frame.lit d q else Frame.lit d q) ∧
    (drawPixels d hit ps).2 = (hit || ps.any fun p => Frame.lit d p) := by
  induction ps generalizing d hit with
  | nil => simp [drawPixels]
  | cons p ps ih =>
    obtain ⟨h1, h2⟩ := List.nodup_cons.1 hn
    have hp0 := hp p List.mem_cons_self
    obtain ⟨i1, i2⟩ := ih (d := Frame.toggle d p) (hit := hit || Frame.lit d p) h2
      fun q hq => hp q (List.mem_cons_of_mem _ hq)
    simp only [drawPixels]
    refine ⟨fun q => ?_, ?_⟩
    · rw [i1 q, Frame.lit_toggle hp0]
      by_cases e : q = p
      · subst e; simp [h1]
      · simp [e]
    · rw [i2, List.any_cons, Bool.or_assoc]
      have : (ps.any fun q => Frame.lit (Frame.toggle d p) q) = ps.any fun q => Frame.lit d q := by
        rw [Bool.eq_iff_iff, List.any_eq_true, List.any_eq_true]
        refine exists_congr fun q => and_congr_right fun hq => ?_
        have hqp : q ≠ p := fun e => h1 (e ▸ hq)
        rw [Frame.lit_toggle hp0, if_neg hqp]
      rw [this]

/-- The first set bit that is out, if any (R265). -/
theorem firstOut_cases (e : SpriteEdge) (x0 y0 : Nat) (bits : List (Nat × Nat)) :
    (firstOut e x0 y0 bits = none ∧ ∀ b ∈ bits, spriteTarget e x0 y0 b.1 b.2 ≠ .out) ∨
    (∃ pre b post, bits = pre ++ b :: post ∧ (∀ q ∈ pre, spriteTarget e x0 y0 q.1 q.2 ≠ .out) ∧
      spriteTarget e x0 y0 b.1 b.2 = .out ∧ firstOut e x0 y0 bits = some (linearIndex x0 y0 b.1 b.2)) := by
  induction bits with
  | nil => exact .inl ⟨rfl, by simp⟩
  | cons b bs ih =>
    by_cases h : spriteTarget e x0 y0 b.1 b.2 = .out
    · exact .inr ⟨[], b, bs, rfl, by simp, h, by simp [firstOut, h]⟩
    · rcases ih with ⟨i1, i2⟩ | ⟨pre, q, post, rfl, i2, i3, i4⟩
      · exact .inl ⟨by simp [firstOut, h, i1], by simpa [h] using i2⟩
      · exact .inr ⟨b :: pre, q, post, rfl, by simpa [h] using i2, i3, by simp [firstOut, h, i4]⟩

/-- The set bits of the sprite in memory: row below the height, bit 7 - c of the byte at I + r set (R260). -/
theorem mem_spriteBits_readBytes {m : Memory} {i0 n : Nat} {p : Nat × Nat} :
    p ∈ spriteBits 0 (Memory.readBytes m i0 n) ↔
      p.1 < n ∧ p.2 < 8 ∧ (Memory.read m (i0 + p.1)).getLsbD (7 - p.2) = true := by
  rw [mem_spriteBits]
  simp only [Nat.zero_le, true_and, Nat.sub_zero, Memory.length_readBytes]
  constructor
  · rintro ⟨h1, h2, h3⟩
    exact ⟨h2, h1, by simpa [Memory.readBytes] using h3⟩
  · rintro ⟨h1, h2, h3⟩
    exact ⟨h2, h1, by simpa [Memory.readBytes] using h3⟩

/-- Everything DXYN can do with pc advanced: a memory fault, a display fault at the first set bit that is out, or the
drawing (R260, R265). -/
theorem State.drawSprite_cases (s : State) (x y n : Nibble) :
    (n.toNat ≠ 0 ∧ 4096 < s.index.toNat + n.toNat ∧
      s.drawSprite x y n = .error ⟨.memoryBounds, max s.index.toNat 4096⟩) ∨
    ((n.toNat = 0 ∨ s.index.toNat + n.toNat ≤ 4096) ∧
      ∃ pre b post, spriteBits 0 (Memory.readBytes s.mem s.index.toNat n.toNat) = pre ++ b :: post ∧
        (∀ q ∈ pre, spriteTarget s.params.spriteEdge (originX (s.reg x)) (originY (s.reg y)) q.1 q.2 ≠ .out) ∧
        spriteTarget s.params.spriteEdge (originX (s.reg x)) (originY (s.reg y)) b.1 b.2 = .out ∧
        s.drawSprite x y n =
          .error ⟨.displayBounds, linearIndex (originX (s.reg x)) (originY (s.reg y)) b.1 b.2⟩) ∨
    ((n.toNat = 0 ∨ s.index.toNat + n.toNat ≤ 4096) ∧
      (∀ q ∈ spriteBits 0 (Memory.readBytes s.mem s.index.toNat n.toNat),
        spriteTarget s.params.spriteEdge (originX (s.reg x)) (originY (s.reg y)) q.1 q.2 ≠ .out) ∧
      let r := drawPixels s.disp false (targetPixels s.params.spriteEdge (originX (s.reg x)) (originY (s.reg y))
        (spriteBits 0 (Memory.readBytes s.mem s.index.toNat n.toNat)))
      s.drawSprite x y n = .ok ((s.setDisp r.1).setReg vf (flagByte r.2))) := by
  by_cases hm : n.toNat = 0 ∨ s.index.toNat + n.toNat ≤ 4096
  · right
    rcases firstOut_cases s.params.spriteEdge (originX (s.reg x)) (originY (s.reg y))
      (spriteBits 0 (Memory.readBytes s.mem s.index.toNat n.toNat)) with ⟨h1, h2⟩ | ⟨pre, b, post, h1, h2, h3, h4⟩
    · exact .inr ⟨hm, h2, by simp only [State.drawSprite, checkRead_eq, if_pos hm, h1]⟩
    · exact .inl ⟨hm, pre, b, post, h1, h2, h3, by simp only [State.drawSprite, checkRead_eq, if_pos hm, h4]⟩
  · exact .inl ⟨by omega, by omega, by simp only [State.drawSprite, checkRead_eq, if_neg hm]⟩

end Sys2Proof.Machine
end

