-- ==== Sys2Proof/Laws/PerInstr.lean ====
section
/-! SUPPORT. Statements about every instruction, one lemma per constructor. `FitsRow`: an instruction's word fits the row of
spec/opcode_table.json it stands for. -/

namespace Sys2Proof.Laws

/-! ## A word under the table's three masks -/

theorem and_F000 (w : Word) : w &&& 0xF000 = formA (family w) 0 := by
  have h : formA (family w) 0 = (family w).setWidth 16 <<< 12 :=
    BitVec.eq_of_toNat_eq (by rw [toNat_formA]; simp [Nat.shiftLeft_eq]; have := (family w).isLt; omega)
  rw [h]
  ext i hi
  interval_cases i <;> simp [family]

theorem and_F0FF (w : Word) : w &&& 0xF0FF = formXNN (family w) 0 (fieldNN w) := by
  have h : formXNN (family w) 0 (fieldNN w) = (family w).setWidth 16 <<< 12 + (fieldNN w).setWidth 16 :=
    BitVec.eq_of_toNat_eq (by
      rw [toNat_formXNN]; simp [Nat.shiftLeft_eq]; have := (family w).isLt; have := (fieldNN w).isLt; omega)
  rw [h, BitVec.add_eq_or_of_and_eq_zero _ _ (by ext i hi; interval_cases i <;> simp)]
  ext i hi
  interval_cases i <;> simp [family, fieldNN]

theorem and_F00F (w : Word) : w &&& 0xF00F = formXYN (family w) 0 0 (fieldN w) := by
  have h : formXYN (family w) 0 0 (fieldN w) = (family w).setWidth 16 <<< 12 + (fieldN w).setWidth 16 :=
    BitVec.eq_of_toNat_eq (by
      rw [toNat_formXYN]; simp [Nat.shiftLeft_eq]; have := (family w).isLt; have := (fieldN w).isLt; omega)
  rw [h, BitVec.add_eq_or_of_and_eq_zero _ _ (by ext i hi; interval_cases i <;> simp)]
  ext i hi
  interval_cases i <;> simp [family, fieldN]

/-! ## FitsRow -/

/-- The word of `i` fits the opcode table's row of `i`. -/
def FitsRow.Statement (i : Instr) : Prop := (tableRow i).fits (encode i) = true

theorem FitsRow.cls (n : Nibble) : FitsRow.Statement (.cls n) := by
  simp only [FitsRow.Statement, TableRow.fits, tableRow, encode, and_F0FF, family_formXNN, fieldNN_formXNN]; decide

theorem FitsRow.ret (n : Nibble) : FitsRow.Statement (.ret n) := by
  simp only [FitsRow.Statement, TableRow.fits, tableRow, encode, and_F0FF, family_formXNN, fieldNN_formXNN]; decide

theorem FitsRow.sys (nnn : Addr) : FitsRow.Statement (.sys nnn) := by
  simp only [FitsRow.Statement, TableRow.fits, tableRow, encode, and_F000, family_formA]; decide

theorem FitsRow.jp (nnn : Addr) : FitsRow.Statement (.jp nnn) := by
  simp only [FitsRow.Statement, TableRow.fits, tableRow, encode, and_F000, family_formA]; decide

theorem FitsRow.call (nnn : Addr) : FitsRow.Statement (.call nnn) := by
  simp only [FitsRow.Statement, TableRow.fits, tableRow, encode, and_F000, family_formA]; decide

theorem FitsRow.seImm (x : Nibble) (nn : Byte) : FitsRow.Statement (.seImm x nn) := by
  simp only [FitsRow.Statement, TableRow.fits, tableRow, encode, and_F000, family_formXNN]; decide

theorem FitsRow.sneImm (x : Nibble) (nn : Byte) : FitsRow.Statement (.sneImm x nn) := by
  simp only [FitsRow.Statement, TableRow.fits, tableRow, encode, and_F000, family_formXNN]; decide

theorem FitsRow.seReg (x y n : Nibble) : FitsRow.Statement (.seReg x y n) := by
  simp only [FitsRow.Statement, TableRow.fits, tableRow, encode, and_F000, family_formXYN]; decide

theorem FitsRow.ldImm (x : Nibble) (nn : Byte) : FitsRow.Statement (.ldImm x nn) := by
  simp only [FitsRow.Statement, TableRow.fits, tableRow, encode, and_F000, family_formXNN]; decide

theorem FitsRow.addImm (x : Nibble) (nn : Byte) : FitsRow.Statement (.addImm x nn) := by
  simp only [FitsRow.Statement, TableRow.fits, tableRow, encode, and_F000, family_formXNN]; decide

theorem FitsRow.ldReg (x y : Nibble) : FitsRow.Statement (.ldReg x y) := by
  simp only [FitsRow.Statement, TableRow.fits, tableRow, encode, and_F00F, family_formXYN, fieldN_formXYN]; decide

theorem FitsRow.or (x y : Nibble) : FitsRow.Statement (.or x y) := by
  simp only [FitsRow.Statement, TableRow.fits, tableRow, encode, and_F00F, family_formXYN, fieldN_formXYN]; decide

theorem FitsRow.and (x y : Nibble) : FitsRow.Statement (.and x y) := by
  simp only [FitsRow.Statement, TableRow.fits, tableRow, encode, and_F00F, family_formXYN, fieldN_formXYN]; decide

theorem FitsRow.xor (x y : Nibble) : FitsRow.Statement (.xor x y) := by
  simp only [FitsRow.Statement, TableRow.fits, tableRow, encode, and_F00F, family_formXYN, fieldN_formXYN]; decide

theorem FitsRow.addReg (x y : Nibble) : FitsRow.Statement (.addReg x y) := by
  simp only [FitsRow.Statement, TableRow.fits, tableRow, encode, and_F00F, family_formXYN, fieldN_formXYN]; decide

theorem FitsRow.sub (x y : Nibble) : FitsRow.Statement (.sub x y) := by
  simp only [FitsRow.Statement, TableRow.fits, tableRow, encode, and_F00F, family_formXYN, fieldN_formXYN]; decide

theorem FitsRow.shr (x y : Nibble) : FitsRow.Statement (.shr x y) := by
  simp only [FitsRow.Statement, TableRow.fits, tableRow, encode, and_F00F, family_formXYN, fieldN_formXYN]; decide

theorem FitsRow.subn (x y : Nibble) : FitsRow.Statement (.subn x y) := by
  simp only [FitsRow.Statement, TableRow.fits, tableRow, encode, and_F00F, family_formXYN, fieldN_formXYN]; decide

theorem FitsRow.shl (x y : Nibble) : FitsRow.Statement (.shl x y) := by
  simp only [FitsRow.Statement, TableRow.fits, tableRow, encode, and_F00F, family_formXYN, fieldN_formXYN]; decide

theorem FitsRow.sneReg (x y n : Nibble) : FitsRow.Statement (.sneReg x y n) := by
  simp only [FitsRow.Statement, TableRow.fits, tableRow, encode, and_F000, family_formXYN]; decide

theorem FitsRow.ldI (nnn : Addr) : FitsRow.Statement (.ldI nnn) := by
  simp only [FitsRow.Statement, TableRow.fits, tableRow, encode, and_F000, family_formA]; decide

theorem FitsRow.jpV0 (nnn : Addr) : FitsRow.Statement (.jpV0 nnn) := by
  simp only [FitsRow.Statement, TableRow.fits, tableRow, encode, and_F000, family_formA]; decide

theorem FitsRow.rnd (x : Nibble) (nn : Byte) : FitsRow.Statement (.rnd x nn) := by
  simp only [FitsRow.Statement, TableRow.fits, tableRow, encode, and_F000, family_formXNN]; decide

theorem FitsRow.drw (x y n : Nibble) : FitsRow.Statement (.drw x y n) := by
  simp only [FitsRow.Statement, TableRow.fits, tableRow, encode, and_F000, family_formXYN]; decide

theorem FitsRow.skp (x : Nibble) : FitsRow.Statement (.skp x) := by
  simp only [FitsRow.Statement, TableRow.fits, tableRow, encode, and_F0FF, family_formXNN, fieldNN_formXNN]; decide

theorem FitsRow.sknp (x : Nibble) : FitsRow.Statement (.sknp x) := by
  simp only [FitsRow.Statement, TableRow.fits, tableRow, encode, and_F0FF, family_formXNN, fieldNN_formXNN]; decide

theorem FitsRow.ldVDt (x : Nibble) : FitsRow.Statement (.ldVDt x) := by
  simp only [FitsRow.Statement, TableRow.fits, tableRow, encode, and_F0FF, family_formXNN, fieldNN_formXNN]; decide

theorem FitsRow.ldK (x : Nibble) : FitsRow.Statement (.ldK x) := by
  simp only [FitsRow.Statement, TableRow.fits, tableRow, encode, and_F0FF, family_formXNN, fieldNN_formXNN]; decide

theorem FitsRow.ldDt (x : Nibble) : FitsRow.Statement (.ldDt x) := by
  simp only [FitsRow.Statement, TableRow.fits, tableRow, encode, and_F0FF, family_formXNN, fieldNN_formXNN]; decide

theorem FitsRow.ldSt (x : Nibble) : FitsRow.Statement (.ldSt x) := by
  simp only [FitsRow.Statement, TableRow.fits, tableRow, encode, and_F0FF, family_formXNN, fieldNN_formXNN]; decide

theorem FitsRow.addI (x : Nibble) : FitsRow.Statement (.addI x) := by
  simp only [FitsRow.Statement, TableRow.fits, tableRow, encode, and_F0FF, family_formXNN, fieldNN_formXNN]; decide

theorem FitsRow.ldF (x : Nibble) : FitsRow.Statement (.ldF x) := by
  simp only [FitsRow.Statement, TableRow.fits, tableRow, encode, and_F0FF, family_formXNN, fieldNN_formXNN]; decide

theorem FitsRow.ldB (x : Nibble) : FitsRow.Statement (.ldB x) := by
  simp only [FitsRow.Statement, TableRow.fits, tableRow, encode, and_F0FF, family_formXNN, fieldNN_formXNN]; decide

theorem FitsRow.ldMemV (x : Nibble) : FitsRow.Statement (.ldMemV x) := by
  simp only [FitsRow.Statement, TableRow.fits, tableRow, encode, and_F0FF, family_formXNN, fieldNN_formXNN]; decide

theorem FitsRow.ldVMem (x : Nibble) : FitsRow.Statement (.ldVMem x) := by
  simp only [FitsRow.Statement, TableRow.fits, tableRow, encode, and_F0FF, family_formXNN, fieldNN_formXNN]; decide

theorem FitsRow.nop88 (x y : Nibble) : FitsRow.Statement (.nop88 x y) := by
  simp only [FitsRow.Statement, TableRow.fits, tableRow, encode, and_F00F, family_formXYN, fieldN_formXYN]; decide

theorem FitsRow.nop89 (x y : Nibble) : FitsRow.Statement (.nop89 x y) := by
  simp only [FitsRow.Statement, TableRow.fits, tableRow, encode, and_F00F, family_formXYN, fieldN_formXYN]; decide

theorem FitsRow.nop8A (x y : Nibble) : FitsRow.Statement (.nop8A x y) := by
  simp only [FitsRow.Statement, TableRow.fits, tableRow, encode, and_F00F, family_formXYN, fieldN_formXYN]; decide

theorem FitsRow.nop8B (x y : Nibble) : FitsRow.Statement (.nop8B x y) := by
  simp only [FitsRow.Statement, TableRow.fits, tableRow, encode, and_F00F, family_formXYN, fieldN_formXYN]; decide

theorem FitsRow.nop8C (x y : Nibble) : FitsRow.Statement (.nop8C x y) := by
  simp only [FitsRow.Statement, TableRow.fits, tableRow, encode, and_F00F, family_formXYN, fieldN_formXYN]; decide

theorem FitsRow.nop8D (x y : Nibble) : FitsRow.Statement (.nop8D x y) := by
  simp only [FitsRow.Statement, TableRow.fits, tableRow, encode, and_F00F, family_formXYN, fieldN_formXYN]; decide

theorem FitsRow.nop8F (x y : Nibble) : FitsRow.Statement (.nop8F x y) := by
  simp only [FitsRow.Statement, TableRow.fits, tableRow, encode, and_F00F, family_formXYN, fieldN_formXYN]; decide

theorem FitsRow.nopE (x : Nibble) (ss : Byte) : FitsRow.Statement (.nopE x ss) := by
  simp only [FitsRow.Statement, TableRow.fits, tableRow, encode, and_F000, family_formXNN]; decide

theorem FitsRow.nopF (x : Nibble) (ss : Byte) : FitsRow.Statement (.nopF x ss) := by
  simp only [FitsRow.Statement, TableRow.fits, tableRow, encode, and_F000, family_formXNN]; decide

end Sys2Proof.Laws
end

