-- ==== Sys2Proof/Laws/Step.lean ====
section
/-! SUPPORT. The cycle: everything a fetch and a cycle can do, and what a cycle does with a fetched word. -/

namespace Sys2Proof.Machine

/-- A fetch: none past 0xFFE, else the two bytes at pc, the lower address in the high byte (30_encoding R101). -/
theorem State.fetch_cases (s : State) :
    (s.pc.toNat > 0xFFE ∧ s.fetch = none) ∨
    (s.pc.toNat ≤ 0xFFE ∧
      s.fetch = some (wordOfBytes (Memory.read s.mem s.pc.toNat) (Memory.read s.mem (s.pc.toNat + 1)))) := by
  unfold State.fetch
  split
  · exact .inl ⟨‹_›, rfl⟩
  · exact .inr ⟨by omega, rfl⟩

/-- A cycle: nothing, the fetch fault, or the decoded instruction and the end of the cycle (R105). -/
theorem step_cases (s : State) :
    (s.fault ≠ none ∧ step s = .next s) ∨
    (s.fault = none ∧ s.fetch = none ∧ step s = .next (s.takeFault ⟨.pcOutOfBounds, s.pc.toNat⟩ none)) ∨
    (∃ w, s.fault = none ∧ s.fetch = some w ∧ step s = endCycle (exec (decodeWord w) s)) := by
  by_cases hf : s.fault = none
  · cases h : s.fetch with
    | none   => exact .inr (.inl ⟨hf, rfl, by simp only [step, if_pos hf, h]⟩)
    | some w => exact .inr (.inr ⟨w, hf, rfl, by simp only [step, if_pos hf, h]⟩)
  · exact .inl ⟨hf, by simp only [step, if_neg hf]⟩

/-- A fetched instruction that completes: its state, ticked (R104). -/
theorem step_completes {s t : State} {w : Word} (hf : s.fault = none) (hw : s.fetch = some w)
    (h : exec (decodeWord w) s = .next t) (ht : t.fault = none) : step s = .next t.tick := by
  simp only [step, if_pos hf, hw, h, endCycle, if_pos ht]

/-- A fetched instruction that faults: its state, not ticked (R104, 60_exceptions R334). -/
theorem step_faults {s t : State} {w : Word} (hf : s.fault = none) (hw : s.fetch = some w)
    (h : exec (decodeWord w) s = .next t) (ht : t.fault ≠ none) : step s = .next t := by
  simp only [step, if_pos hf, hw, h, endCycle, if_neg ht]

/-- Copying the default font in lists nothing: those bytes are what an unlisted address reads as (20_memory R75, R76). -/
theorem Memory.writeBytes_defaultFont : Memory.writeBytes [] Config.fontBase defaultFont.toList = [] := by
  decide +kernel

end Sys2Proof.Machine
end

