-- ==== Sys2Proof/Tests/Slice0.lean ====
section
/-! SUPPORT. Tests: ill-formed terms, decoding of words written out from spec/, single cycles from the vectors of
95_test_vectors (named in each comment), and a witness for the hypotheses of each statement. -/

namespace Sys2Proof.Tests

open Sys2Proof Sys2Proof.Machine Sys2Proof.Config Sys2Proof.Claims

/-! ## Ill-formed terms are refused -/

/-- The SYS row excludes the low bytes of CLS and RET. -/
theorem test_wf_refuses_sys : (Instr.sys 0x1E0).wf = false ∧ (Instr.sys 0xFEE).wf = false := by decide

/-- The default row of family 0xE excludes the two assigned codes. -/
theorem test_wf_refuses_nopE : (Instr.nopE 3 0x9E).wf = false ∧ (Instr.nopE 3 0xA1).wf = false := by decide

/-- The default row of family 0xF excludes the nine assigned codes. -/
theorem test_wf_refuses_nopF : ∀ b ∈ [0x07, 0x0A, 0x15, 0x18, 0x1E, 0x29, 0x33, 0x55, 0x65],
    (Instr.nopF 0 (BitVec.ofNat 8 b)).wf = false := by decide

/-- A single byte is no instruction (30_encoding R106). -/
theorem test_decode_refuses_one_byte : decodeBytes [0x12] = .error .truncated := rfl

/-! ## Decoding: words written out field by field from R108 and R116 -/

theorem test_decode_family_0 :
    decodeWord 0b0000_0000_1110_0000 = .cls 0 ∧ decodeWord 0b0000_1111_1110_1110 = .ret 15 ∧
    decodeWord 0b0000_0001_0010_0011 = .sys 0x123 ∧ decodeWord 0b0000_0000_1110_0001 = .sys 0x0E1 := by decide

theorem test_decode_families_1_to_7 :
    decodeWord 0b0001_1010_1011_1100 = .jp 0xABC ∧ decodeWord 0b0010_0100_0000_0001 = .call 0x401 ∧
    decodeWord 0b0011_1100_1000_0001 = .seImm 12 0x81 ∧ decodeWord 0b0100_0011_0100_0010 = .sneImm 3 0x42 ∧
    decodeWord 0b0101_0001_0010_0000 = .seReg 1 2 0 ∧ decodeWord 0b0110_1010_0010_1111 = .ldImm 10 0x2F ∧
    decodeWord 0b0111_0000_1111_1110 = .addImm 0 0xFE := by decide

theorem test_decode_family_8 :
    decodeWord 0b1000_0001_0010_0000 = .ldReg 1 2 ∧ decodeWord 0b1000_0001_0010_0001 = .or 1 2 ∧
    decodeWord 0b1000_0001_0010_0010 = .and 1 2 ∧ decodeWord 0b1000_0001_0010_0011 = .xor 1 2 ∧
    decodeWord 0b1000_0001_0010_0100 = .addReg 1 2 ∧ decodeWord 0b1000_0001_0010_0101 = .sub 1 2 ∧
    decodeWord 0b1000_0001_0010_0110 = .shr 1 2 ∧ decodeWord 0b1000_0001_0010_0111 = .subn 1 2 ∧
    decodeWord 0b1000_0001_0010_1110 = .shl 1 2 := by decide

theorem test_decode_family_8_unassigned :
    decodeWord 0b1000_0001_0010_1000 = .nop88 1 2 ∧ decodeWord 0b1000_0001_0010_1001 = .nop89 1 2 ∧
    decodeWord 0b1000_0001_0010_1010 = .nop8A 1 2 ∧ decodeWord 0b1000_0001_0010_1011 = .nop8B 1 2 ∧
    decodeWord 0b1000_0001_0010_1100 = .nop8C 1 2 ∧ decodeWord 0b1000_0001_0010_1101 = .nop8D 1 2 ∧
    decodeWord 0b1000_0001_0010_1111 = .nop8F 1 2 := by decide

theorem test_decode_families_9_to_D :
    decodeWord 0b1001_0111_1000_0001 = .sneReg 7 8 1 ∧ decodeWord 0b1010_0011_0000_0101 = .ldI 0x305 ∧
    decodeWord 0b1011_1111_1000_0000 = .jpV0 0xF80 ∧ decodeWord 0b1100_0011_0000_1111 = .rnd 3 0x0F ∧
    decodeWord 0b1101_0001_0010_1111 = .drw 1 2 15 := by decide

theorem test_decode_family_E :
    decodeWord 0b1110_0001_1001_1110 = .skp 1 ∧ decodeWord 0b1110_0010_1010_0001 = .sknp 2 ∧
    decodeWord 0b1110_0001_1001_1111 = .nopE 1 0x9F := by decide

theorem test_decode_family_F :
    decodeWord 0b1111_0011_0000_0111 = .ldVDt 3 ∧ decodeWord 0b1111_0101_0000_1010 = .ldK 5 ∧
    decodeWord 0b1111_0000_0001_0101 = .ldDt 0 ∧ decodeWord 0b1111_0000_0001_1000 = .ldSt 0 ∧
    decodeWord 0b1111_0101_0001_1110 = .addI 5 ∧ decodeWord 0b1111_0001_0010_1001 = .ldF 1 ∧
    decodeWord 0b1111_0000_0011_0011 = .ldB 0 ∧ decodeWord 0b1111_1111_0101_0101 = .ldMemV 15 ∧
    decodeWord 0b1111_0010_0110_0101 = .ldVMem 2 ∧ decodeWord 0b1111_0001_0000_1000 = .nopF 1 0x08 := by decide

/-- Bit 0 of the table's numbering is the least significant bit of the word. -/
theorem test_decodeTableWord : decodeTableWord 16 0x00E0 = some (.cls 0) ∧ decodeTableWord 16 0xF165 = some (.ldVMem 1) := by
  decide

/-! ## Single cycles -/

/-- The state one cycle after `s` with the word `w` placed at its pc. -/
def after (s : State) (w : Nat) : State :=
  match step (s.withFetchWord 16 w) with
  | .next t    => t
  | .fault _   => s
  | .refused _ => s

/-- `s` with the bytes `bs` at 0x300 and I = 0x300. -/
def withSprite (s : State) (bs : List Byte) : State :=
  { s with mem := Memory.writeBytes s.mem 0x300 bs, index := 0x300 }

/-- `s` with `V[0] = a` and `V[1] = b`. -/
def with01 (s : State) (a b : Byte) : State := (s.setReg 0 a).setReg 1 b

/-- The reset state with `k` stack entries in use. -/
def deep (k : Fin 17) : State := { State.reset with sp := k }

/-- The keypad with the given keys pressed. -/
def keys (ks : List Nat) : Vector Bool 16 := Vector.ofFn fun k : Fin 16 => ks.contains k.val

/-- The record of a fault at 0x200. -/
def recordAt200 (c : FaultCause) (w : Word) (info : Nat) : Option FaultRecord :=
  some { cause := c, pc := 0x200, opcode := some w, info := info }

/-- L2.C.2. -/
theorem test_fetch_at_FFF : (after { State.reset with pc := 0xFFF } 0).fault =
    some { cause := .pcOutOfBounds, pc := 0xFFF, opcode := none, info := 0xFFF } := by decide

/-- L2.C.4: an odd pc. -/
theorem test_fetch_at_odd_pc : (after { State.reset with pc := 0x201 } 0x602A).reg 0 = 0x2A ∧
    (after { State.reset with pc := 0x201 } 0x602A).pc = 0x203 := by decide

/-- L2.C.5 and L1.4: CLS, its ignored bits included. -/
theorem test_cls : (after { State.reset with disp := Frame.toggle Frame.blank 77 } 0x01E0).disp.lit 77 = false := by decide

/-- L2.F.2. -/
theorem test_ret : (after { deep 2 with stack := State.reset.stack.set 1 0x234 } 0x00EE).pc = 0x234 ∧
    (after { deep 2 with stack := State.reset.stack.set 1 0x234 } 0x00EE).sp = 1 := by decide

/-- L2.F.3 and L2.T.8: the record, and no tick. -/
theorem test_ret_underflow :
    (after { State.reset with dt := 5 } 0x00EE).fault = recordAt200 .stackUnderflow 0x00EE 0 ∧
    (after { State.reset with dt := 5 } 0x00EE).dt = 5 ∧ (after { State.reset with dt := 5 } 0x00EE).pc = 0x200 := by decide

/-- L2.C.11: the no-op ticks. -/
theorem test_sys : (after { State.reset with dt := 5, st := 1 } 0x0000).dt = 4 ∧
    (after { State.reset with dt := 5, st := 1 } 0x0000).st = 0 ∧
    (after { State.reset with dt := 5, st := 1 } 0x0000).pc = 0x202 := by decide

/-- L1.11. -/
theorem test_jp : (after State.reset 0x1234).pc = 0x234 := by decide

/-- L2.F.8. -/
theorem test_call : (after (deep 15) 0x2400).stack[15] = 0x202 ∧ (after (deep 15) 0x2400).sp = 16 ∧
    (after (deep 15) 0x2400).pc = 0x400 := by decide

/-- L2.F.9. -/
theorem test_call_overflow : (after (deep 16) 0x2400).fault = recordAt200 .stackOverflow 0x2400 16 := by decide

/-- L2.F.14 and L2.F.15. -/
theorem test_seImm : (after (State.reset.setReg 3 0x42) 0x3342).pc = 0x204 ∧
    (after (State.reset.setReg 3 0x41) 0x3342).pc = 0x202 := by decide

/-- L2.F.16 and L2.F.17. -/
theorem test_sneImm : (after (State.reset.setReg 3 0x41) 0x4342).pc = 0x204 ∧
    (after (State.reset.setReg 3 0x42) 0x4342).pc = 0x202 := by decide

/-- L2.F.19: the low nibble is ignored. -/
theorem test_seReg : (after ((State.reset.setReg 1 7).setReg 2 7) 0x512F).pc = 0x204 := by decide

/-- L2.F.21 and L2.F.22. -/
theorem test_sneReg : (after ((State.reset.setReg 1 7).setReg 2 8) 0x9120).pc = 0x204 ∧
    (after State.reset 0x9110).pc = 0x202 := by decide

/-- L2.F.12: no mask to 12 bits. -/
theorem test_jpV0 : (after (State.reset.setReg 0 0xFF) 0xBF80).pc = 0x107F := by decide

/-- L2.F.13: V0, not V3. -/
theorem test_jpV0_register : (after ((State.reset.setReg 0 1).setReg 3 9) 0xB3FF).pc = 0x400 := by decide

/-- L2.A.1. -/
theorem test_ldImm : (after State.reset 0x6A2F).reg 10 = 0x2F := by decide

/-- L2.A.3 and L2.A.5. -/
theorem test_addImm : (after (State.reset.setReg 0 0xFF) 0x7001).reg 0 = 0 ∧
    (after (State.reset.setReg 0 0xFF) 0x7001).reg 15 = 0 ∧ (after (State.reset.setReg 15 0xFF) 0x7F02).reg 15 = 1 := by decide

/-- L2.A.6. -/
theorem test_ldReg : (after (State.reset.setReg 2 0x99) 0x8120).reg 1 = 0x99 := by decide

/-- L2.A.7: VF is kept. -/
theorem test_or : (after (((State.reset.setReg 1 0xF0).setReg 2 0x0F).setReg 15 0x55) 0x8121).reg 1 = 0xFF ∧
    (after (((State.reset.setReg 1 0xF0).setReg 2 0x0F).setReg 15 0x55) 0x8121).reg 15 = 0x55 := by decide

/-- L2.A.8. -/
theorem test_and : (after ((State.reset.setReg 1 0xF3).setReg 2 0x3F) 0x8122).reg 1 = 0x33 := by decide

/-- The example of R188. -/
theorem test_xor : (after ((State.reset.setReg 1 0xFF).setReg 2 0x0F) 0x8123).reg 1 = 0xF0 := by decide

/-- L2.A.10 and L2.A.11. -/
theorem test_addReg : (after (with01 State.reset 0xFE 1) 0x8014).reg 15 = 0 ∧
    (after (with01 State.reset 0xFF 1) 0x8014).reg 15 = 1 ∧ (after (with01 State.reset 0xFF 1) 0x8014).reg 0 = 0 := by decide

/-- L2.A.13 and L2.A.14: VF as destination and as operand. -/
theorem test_addReg_vf : (after ((State.reset.setReg 15 0xF0).setReg 1 0x20) 0x8F14).reg 15 = 0x10 ∧
    (after ((State.reset.setReg 0 0x10).setReg 15 0xF0) 0x80F4).reg 0 = 0 ∧
    (after ((State.reset.setReg 0 0x10).setReg 15 0xF0) 0x80F4).reg 15 = 1 := by decide

/-- L2.A.16: equal operands leave no flag. -/
theorem test_sub_equal : (after ((State.reset.setReg 3 2).setReg 1 2) 0x8315).reg 3 = 0 ∧
    (after ((State.reset.setReg 3 2).setReg 1 2) 0x8315).reg 15 = 0 := by decide

/-- L2.A.15 and L2.A.17. -/
theorem test_sub : (after ((State.reset.setReg 2 3).setReg 1 2) 0x8215).reg 15 = 1 ∧
    (after ((State.reset.setReg 4 1).setReg 1 2) 0x8415).reg 4 = 0xFF := by decide

/-- L2.A.22: Y ignored. -/
theorem test_shr : (after ((State.reset.setReg 4 0x81).setReg 5 0xFF) 0x8456).reg 4 = 0x40 ∧
    (after ((State.reset.setReg 4 0x81).setReg 5 0xFF) 0x8456).reg 15 = 1 := by decide

/-- L2.A.24. -/
theorem test_shr_vf : (after (State.reset.setReg 15 3) 0x8F06).reg 15 = 1 := by decide

/-- L2.A.19 and L2.A.21. -/
theorem test_subn : (after ((State.reset.setReg 1 2).setReg 2 5) 0x8127).reg 1 = 3 ∧
    (after ((State.reset.setReg 1 2).setReg 2 5) 0x8127).reg 15 = 1 ∧
    (after ((State.reset.setReg 1 5).setReg 2 2) 0x8127).reg 1 = 0xFD := by decide

/-- L2.A.25. -/
theorem test_shl : (after (State.reset.setReg 4 0x81) 0x840E).reg 4 = 2 ∧
    (after (State.reset.setReg 4 0x81) 0x840E).reg 15 = 1 := by decide

/-- L2.A.27. -/
theorem test_shl_vf : (after (State.reset.setReg 15 0x80) 0x8F0E).reg 15 = 0 := by decide

/-- L2.A.28 and L2.A.29: the free byte masked; with NN = 0 nothing of it is left. -/
theorem test_rnd : (after State.reset 0xC30F).reg 3 = randomByte 0 0 &&& 0x0F ∧ (after State.reset 0xC300).reg 3 = 0 := by
  exact ⟨rfl, (show (after State.reset 0xC300).reg 3 = randomByte 0 0 &&& 0#8 from rfl).trans BitVec.and_zero⟩

/-- L2.M.1. -/
theorem test_ldI : (after State.reset 0xA300).index = 0x300 := by decide

/-- L2.M.3 and L2.M.4. -/
theorem test_addI : (after { State.reset.setReg 5 1 with index := 0xFFF } 0xF51E).index = 0x1000 ∧
    (after { State.reset.setReg 5 1 with index := 0xFFFF } 0xF51E).index = 0 := by decide

/-- L2.M.5 and L1.10. -/
theorem test_ldF : (after (State.reset.setReg 0 0x0A) 0xF029).index = 0x82 ∧
    (after (State.reset.setReg 0 15) 0xF029).index = 0x9B := by decide

/-- L2.M.6. -/
theorem test_ldF_fault : (after (State.reset.setReg 0 0x10) 0xF029).fault = recordAt200 .invalidDigit 0xF029 0x10 := by decide

/-- L2.M.9, and L2.M.12 under FONT_WRITE = Allow. -/
theorem test_ldB :
    Memory.readBytes (after { State.reset.setReg 0 0xCD with index := 0xFFD } 0xF033).mem 0xFFD 3 = [2, 0, 5] ∧
    Memory.readBytes (after { State.reset.setReg 0 0xCD with index := 0x9E, params := ⟨.literal, .allow⟩ } 0xF033).mem 0x9E 3
      = [2, 0, 5] := by decide

/-- L2.M.10 and L2.M.11. -/
theorem test_ldB_faults :
    (after { State.reset.setReg 0 0xCD with index := 0xFFE } 0xF033).fault = recordAt200 .memoryBounds 0xF033 0x1000 ∧
    (after { State.reset.setReg 0 0xCD with index := 0x9E } 0xF033).fault = recordAt200 .fontWrite 0xF033 0x9E := by decide

/-- L2.M.13. -/
theorem test_ldMemV :
    Memory.readBytes (after { (with01 State.reset 1 2).setReg 2 3 with index := 0x300 } 0xF255).mem 0x300 4 = [1, 2, 3, 0] ∧
    (after { (with01 State.reset 1 2).setReg 2 3 with index := 0x300 } 0xF255).index = 0x300 := by decide

/-- L2.M.16 and L2.M.17. -/
theorem test_ldMemV_faults :
    (after { State.reset with index := 0xFF1 } 0xFF55).fault = recordAt200 .memoryBounds 0xFF55 0x1000 ∧
    (after { State.reset with index := 0x4C } 0xF755).fault = recordAt200 .fontWrite 0xF755 0x50 := by decide

/-- L2.M.19: glyph 0. -/
theorem test_ldVMem : ((after { State.reset with index := 0x50 } 0xF465).v.toList.take 6) =
    [0xF0, 0x90, 0x90, 0x90, 0xF0, 0] := by decide

/-- L2.M.20. -/
theorem test_ldVMem_fault :
    (after { State.reset with index := 0xFFF } 0xF165).fault = recordAt200 .memoryBounds 0xF165 0x1000 := by decide

/-- Which of the given pixels are lit. -/
def litOf (s : State) (ps : List Nat) : List Bool := ps.map fun p => s.disp.lit p

/-- L2.D.1, L2.D.3, L2.D.4: the right edge under each SPRITE_EDGE, at pixels (59, 0), (60, 0), (63, 0), (0, 0), (0, 1),
(3, 1), (4, 1). -/
theorem test_drw_right_edge :
    litOf (after (with01 (withSprite State.reset [0xFF]) 60 0) 0xD011) [59, 60, 63, 0, 64, 67, 68]
      = [false, true, true, false, true, true, false] ∧
    litOf (after (with01 (withSprite { State.reset with params := ⟨.clip, .fault⟩ } [0xFF]) 60 0) 0xD011)
      [59, 60, 63, 0, 64, 67, 68] = [false, true, true, false, false, false, false] ∧
    litOf (after (with01 (withSprite { State.reset with params := ⟨.wrap, .fault⟩ } [0xFF]) 60 0) 0xD011)
      [59, 60, 63, 0, 3, 4, 64] = [false, true, true, true, true, false, false] := by decide

/-- L2.D.10 and L2.D.13 (the origin is the old VF), and L1.12 (the flag stays set). -/
theorem test_drw :
    (after (with01 (withSprite State.reset [0x01]) 63 31) 0xD011).fault = recordAt200 .displayBounds 0xD011 2054 ∧
    litOf (after ((withSprite State.reset [0xC0]).setReg 15 8) 0xDF11) [7, 8, 9, 10] = [false, true, true, false] ∧
    (after { withSprite State.reset [0xFF] with disp := Frame.toggle Frame.blank 0 } 0xD011).reg 15 = 1 ∧
    litOf (after { withSprite State.reset [0xFF] with disp := Frame.toggle Frame.blank 0 } 0xD011) [0, 1, 7, 8]
      = [false, true, true, false] := by decide

/-- L2.K.1 and L2.K.5. -/
theorem test_skp : (after { State.reset.setReg 1 7 with key := keys [7] } 0xE19E).pc = 0x204 ∧
    (after (State.reset.setReg 1 0x10) 0xE19E).fault = recordAt200 .keyIndex 0xE19E 0x10 := by decide

/-- L2.K.3 and L2.K.4. -/
theorem test_sknp : (after (State.reset.setReg 1 7) 0xE1A1).pc = 0x204 ∧
    (after { State.reset.setReg 1 7 with key := keys [7] } 0xE1A1).pc = 0x202 := by decide

/-- L2.K.7: the least key. -/
theorem test_ldK : (after { State.reset with key := keys [3, 9] } 0xF50A).reg 5 = 3 ∧
    (after { State.reset with key := keys [3, 9] } 0xF50A).pc = 0x202 := by decide

/-- L2.K.8: waiting. -/
theorem test_ldK_waits : (after { State.reset with dt := 2 } 0xF50A).pc = 0x200 ∧
    (after { State.reset with dt := 2 } 0xF50A).dt = 1 := by decide

/-- L2.T.1. -/
theorem test_ldVDt : (after { State.reset with dt := 0x20 } 0xF307).reg 3 = 0x20 ∧
    (after { State.reset with dt := 0x20 } 0xF307).dt = 0x1F := by decide

/-- L2.T.3. -/
theorem test_ldDt : (after (State.reset.setReg 0 3) 0xF015).dt = 2 := by decide

/-- L2.T.5. -/
theorem test_ldSt : (after (State.reset.setReg 0 1) 0xF018).st = 0 := by decide

/-- L2.C.8, L2.C.9, L2.C.10: the unassigned codes change nothing but pc. -/
theorem test_unassigned : ∀ w ∈ [0x8128, 0x8129, 0x812A, 0x812B, 0x812C, 0x812D, 0x812F, 0xE19F, 0xF1FF],
    { after State.reset w with mem := [], pc := 0x200 } = State.reset ∧ (after State.reset w).pc = 0x202 := by decide

/-- L2.H.1 and L2.H.3. -/
theorem test_host : Memory.readBytes (initialState defaultSetup 0).mem 0x50 5 = [0xF0, 0x90, 0x90, 0x90, 0xF0] ∧
    (initialState defaultSetup 0).pc = 0x200 ∧ loadFaultCode = 9 := by decide +kernel

/-! ## Witnesses: states and operands that meet the hypotheses of each statement, clause by clause, at the edges -/

theorem witness_DecodeOfEncodeIsTheInstruction :
    (Instr.sys 0xFDF).wf = true ∧ (Instr.nopE 15 0x9F).wf = true ∧ (Instr.nopF 15 0xFF).wf = true ∧
    (Instr.drw 15 15 15).wf = true := by decide

/-- One word fits two rows. -/
theorem witness_DecoderPicksTheMostSpecificTableRow :
    (tableRow (.sys 0)).fits 0x00E0 = true ∧ (tableRow (.cls 0)).fits 0x00E0 = true := by decide

/-- The last pc a fetch may have (L2.C.1). -/
theorem witness_StepRunsTheDecodedInstruction :
    let s := { State.reset with pc := 0xFFE }.withFetchWord 16 0x1200
    s.fault = none ∧ s.pc.toNat ≤ 0xFFE ∧ (Instr.jp 0x200).wf = true ∧
    decodeBytes [Memory.read s.mem s.pc.toNat, Memory.read s.mem (s.pc.toNat + 1)] = .ok (.jp 0x200, []) :=
  ⟨rfl, by decide, rfl, rfl⟩

theorem witness_FetchIsBigEndianAndBounded :
    ({ State.reset with pc := 0xFFE } : State).pc.toNat ≤ 0xFFE ∧
    ({ State.reset with pc := 0xFFF } : State).pc.toNat > 0xFFE ∧ ({ State.reset with pc := 0xFFF } : State).fault = none := by
  decide

/-- A faulted state. -/
def faulted : State := after State.reset 0x00EE

theorem witness_FaultsCommitOnlyTheRecord :
    (∃ s t r, step s = .next t ∧ s.fault = none ∧ t.fault = some r ∧ r.opcode = some 0x00EE) ∧
    (∃ s t r, step s = .next t ∧ s.fault = none ∧ t.fault = some r ∧ r.opcode = none) ∧
    (∃ t, faulted.fault ≠ none ∧ step faulted = .next t) ∧
    (∃ r h' reply, ({ Session.fresh defaultSetup with machine := some faulted } : Session).machine = some faulted ∧
      faulted.fault = some r ∧ (∀ seed, HostOp.readFault ≠ .init seed) ∧
      ({ Session.fresh defaultSetup with machine := some faulted } : Session).apply .readFault = .next (h', reply)) :=
  ⟨⟨State.reset.withFetchWord 16 0x00EE, _, _, rfl, rfl, rfl, rfl⟩,
    ⟨{ State.reset with pc := 0xFFF }, _, _, rfl, rfl, rfl, rfl⟩, ⟨_, by decide, rfl⟩,
    ⟨_, _, _, rfl, rfl, fun _ => nofun, rfl⟩⟩

theorem witness_TimersTickOncePerCompletedCycle :
    (∃ s t w, CycleCompletes s t ∧ s.fetch = some w ∧ (∀ x, decodeWord w ≠ .ldDt x) ∧ (∀ x, decodeWord w ≠ .ldSt x)) ∧
    (∃ s t w, CycleCompletes s t ∧ s.fetch = some w ∧ decodeWord w = .ldDt 0) ∧
    (∃ s t w, CycleCompletes s t ∧ s.fetch = some w ∧ decodeWord w = .ldSt 0) ∧
    (∃ s t, s.fault = none ∧ step s = .next t ∧ t.fault ≠ none) :=
  ⟨⟨State.reset, _, 0, ⟨rfl, rfl, rfl⟩, rfl, fun _ => nofun, fun _ => nofun⟩,
    ⟨State.reset.withFetchWord 16 0xF015, _, 0xF015, ⟨rfl, rfl, rfl⟩, rfl, rfl⟩,
    ⟨State.reset.withFetchWord 16 0xF018, _, 0xF018, ⟨rfl, rfl, rfl⟩, rfl, rfl⟩,
    ⟨State.reset.withFetchWord 16 0x00EE, _, rfl, rfl, nofun⟩⟩

theorem witness_EachInstructionChangesOnlyItsOwnParts :
    ∃ t, exec (.ldVMem 14) State.reset = .next t ∧ ¬ mayWrite (.ldVMem 14) 15 := ⟨_, rfl, by simp [mayWrite]⟩

/-- By CLS and by DRW. -/
theorem witness_ScreenChangesOnlyByClearAndDraw :
    (∃ s t : State, step s = .next t ∧ t.disp ≠ s.disp ∧ s.fetch = some 0x00E0) ∧
    (∃ s t : State, step s = .next t ∧ t.disp ≠ s.disp ∧ s.fetch = some 0xD001) ∧
    ({ Session.fresh defaultSetup with machine := some State.reset } : Session).machine = some State.reset :=
  ⟨⟨State.withFetchWord { State.reset with disp := Frame.toggle Frame.blank 0 } 16 0x00E0, _, rfl, by decide, rfl⟩,
    ⟨State.withFetchWord (withSprite State.reset [0x80]) 16 0xD001, _, rfl, by decide, rfl⟩, rfl⟩

theorem witness_StepKeepsMemoryCanonical :
    (State.withFetchWord { State.reset with index := 0xFFF } 16 0xF055).mem.wf = true ∧
    ∃ t, step (State.withFetchWord { State.reset with index := 0xFFF } 16 0xF055) = .next t := ⟨rfl, _, rfl⟩

/-- Stores just below and just above the font, and into it. -/
theorem witness_StepKeepsTheFont :
    ∀ i ∈ [0x4F, 0x50, 0x9F, 0xA0],
      FontIntact defaultFont (State.withFetchWord { State.reset with index := BitVec.ofNat 16 i } 16 0xF055) ∧
      ∃ t, step (State.withFetchWord { State.reset with index := BitVec.ofNat 16 i } 16 0xF055) = .next t := by
  intro i hi
  simp only [List.mem_cons, List.not_mem_nil, or_false] at hi
  rcases hi with rfl | rfl | rfl | rfl <;> exact ⟨⟨rfl, by decide⟩, _, rfl⟩

/-- The largest pc and the largest entry. -/
theorem witness_StepKeepsAddressesInRange :
    AddressesInRange { State.reset with pc := 0x10FE, stack := Vector.replicate 16 0x1000 } ∧
    ∃ t, step { State.reset with pc := 0x10FE, stack := Vector.replicate 16 0x1000 } = .next t :=
  ⟨⟨by decide, by decide⟩, _, rfl⟩

theorem witness_EqualContentsAreEqualMemories :
    Memory.wf [(0x50, 0), (0xFFF, 1)] = true ∧ Memory.wf (Memory.write [(0xFFF, 1)] 0x50 0) = true ∧
    ∀ a, Memory.read [(0x50, 0), (0xFFF, 1)] a = Memory.read (Memory.write [(0xFFF, 1)] 0x50 0) a :=
  ⟨by decide, by decide, fun _ => rfl⟩

/-- The first and last font byte, and the addresses beside the font. -/
theorem witness_InitializeGivesTheResetTable :
    (0 < 80 ∧ 79 < 80) ∧ ((0x4F < 0x50 ∨ 0xA0 ≤ 0x4F) ∧ (0xA0 < 0x50 ∨ 0xA0 ≤ 0xA0)) ∧ 15 < 16 := by decide

/-- A session right after `initialize`. -/
def freshSession : Session := { Session.fresh defaultSetup with machine := some State.reset }

/-- One byte too many, the longest image, and the two refusals. -/
theorem witness_LoadProgramFillsFromTwoHundred :
    freshSession.machine = some State.reset ∧ freshSession.loaded = false ∧ freshSession.started = false ∧
    (List.replicate 3585 (0 : Byte)).length > 4096 - 0x200 ∧ (List.replicate 3584 (0 : Byte)).length ≤ 4096 - 0x200 ∧
    State.reset.mem.wf = true ∧ ({ freshSession with loaded := true } : Session).loaded = true ∧
    ({ freshSession with started := true } : Session).started = true :=
  ⟨rfl, rfl, rfl, by rw [List.length_replicate]; decide, by rw [List.length_replicate], rfl, rfl, rfl⟩

theorem witness_HostOperationsKeepTheirOrder :
    (Session.fresh defaultSetup).machine = none ∧ (∀ seed, HostOp.stepCycle ≠ .init seed) ∧
    freshSession.machine = some State.reset := ⟨rfl, fun _ => nofun, rfl⟩

theorem witness_HostReadsChangeNothing : freshSession.machine = some State.reset := rfl

theorem witness_KeypadWriteReplacesEveryKey : freshSession.machine = some State.reset := rfl

/-- Empty, one entry, full. -/
theorem witness_ReturnPopsIntoPc : (deep 0).sp.val = 0 ∧ (deep 1).sp.val ≠ 0 ∧ (deep 16).sp.val ≠ 0 := by decide

theorem witness_NoOpsOnlyAdvancePc :
    (Instr.sys 0).wf = true ∧ (Instr.nopE 0 0x9D).wf = true ∧ (Instr.nopF 0 0x06).wf = true ∧
    State.reset.fault = none ∧ State.reset.fetch = some 0 := ⟨rfl, rfl, rfl, rfl, rfl⟩

/-- A register other than the destination; the last bit of a byte. -/
theorem witness_LoadsSetOneRegister : (0 : Nibble) ≠ 15 := by decide

theorem witness_AddImmediateWrapsWithoutFlag : (15 : Nibble) ≠ 0 := by decide

theorem witness_BitwiseOperationsKeepTheFlag : 7 < 8 ∧ (15 : Nibble) ≠ 0 := by decide

theorem witness_RandomByteIsMaskedAndFresh : 7 < 8 ∧ (15 : Nibble) ≠ 0 := by decide

theorem witness_DrawOfHeightZeroClearsVf : (14 : Nibble) ≠ 15 := by decide

theorem witness_TimerTransfers : (15 : Nibble) ≠ 0 := by decide

/-- Full, and one entry free. -/
theorem witness_CallPushesTheNextAddress : (deep 16).sp.val = 16 ∧ (deep 15).sp.val ≠ 16 := by decide

/-- A register other than the destination and other than VF; the destination not VF. -/
theorem witness_AddSetsTheCarry : (14 : Nibble) ≠ 15 ∧ (0 : Nibble) ≠ 14 ∧ (0 : Nibble) ≠ 15 := by decide

theorem witness_SubtractsSetNoBorrow : (14 : Nibble) ≠ 15 ∧ (0 : Nibble) ≠ 14 ∧ (0 : Nibble) ≠ 15 := by decide

theorem witness_ShiftsSetTheBitShiftedOut : (14 : Nibble) ≠ 15 ∧ (0 : Nibble) ≠ 14 ∧ (0 : Nibble) ≠ 15 := by decide

/-- 16 and 15. -/
theorem witness_FontAddressOfADigit :
    ((State.reset.setReg 0 16).reg 0).toNat > 15 ∧ ((State.reset.setReg 0 15).reg 0).toNat ≤ 15 := by decide

/-- The reset state with I = `i`. -/
def indexed (i : Word) : State := { State.reset with index := i }

/-- Out of bounds from 0xFFE on; in the font from 0x4E to 0x9F; completing at 0xFFD, 0xA0, 0x4D, and inside the font when
stores there are allowed. -/
theorem witness_StoreBcdWritesThreeDigits :
    (indexed 0xFFE).index.toNat + 2 > 0xFFF ∧
    (∀ i ∈ [0x4E, 0x9F], (indexed (BitVec.ofNat 16 i)).index.toNat + 2 ≤ 0xFFF ∧
      (indexed (BitVec.ofNat 16 i)).params.fontWrite = .fault ∧ (indexed (BitVec.ofNat 16 i)).index.toNat ≤ 0x9F ∧
      0x50 ≤ (indexed (BitVec.ofNat 16 i)).index.toNat + 2) ∧
    (∀ i ∈ [0xFFD, 0xA0, 0x4D], (indexed (BitVec.ofNat 16 i)).index.toNat + 2 ≤ 0xFFF ∧
      (0x9F < (indexed (BitVec.ofNat 16 i)).index.toNat ∨ (indexed (BitVec.ofNat 16 i)).index.toNat + 2 < 0x50) ∧
      (indexed (BitVec.ofNat 16 i)).mem.wf = true) ∧
    ({ indexed 0x50 with params := ⟨.literal, .allow⟩ } : State).params.fontWrite = .allow := by decide

/-- The same edges for X = 3 and X = 15. -/
theorem witness_RegisterDumpWritesV0ToVx :
    (indexed 0xFF1).index.toNat + (15 : Nibble).toNat > 0xFFF ∧
    (∀ i ∈ [0x4D, 0x9F], (indexed (BitVec.ofNat 16 i)).index.toNat + (3 : Nibble).toNat ≤ 0xFFF ∧
      (indexed (BitVec.ofNat 16 i)).params.fontWrite = .fault ∧ (indexed (BitVec.ofNat 16 i)).index.toNat ≤ 0x9F ∧
      0x50 ≤ (indexed (BitVec.ofNat 16 i)).index.toNat + (3 : Nibble).toNat) ∧
    (∀ i ∈ [0xFFC, 0xA0, 0x4C], (indexed (BitVec.ofNat 16 i)).index.toNat + (3 : Nibble).toNat ≤ 0xFFF ∧
      (0x9F < (indexed (BitVec.ofNat 16 i)).index.toNat ∨
        (indexed (BitVec.ofNat 16 i)).index.toNat + (3 : Nibble).toNat < 0x50) ∧
      (indexed (BitVec.ofNat 16 i)).mem.wf = true) ∧
    ({ indexed 0x50 with params := ⟨.literal, .allow⟩ } : State).params.fontWrite = .allow := by decide

theorem witness_RegisterLoadReadsV0ToVx :
    (indexed 0xFF1).index.toNat + (15 : Nibble).toNat > 0xFFF ∧ (indexed 0xFF0).index.toNat + (15 : Nibble).toNat ≤ 0xFFF ∧
    (14 : Nibble).toNat ≤ (14 : Nibble).toNat ∧ (14 : Nibble).toNat < (15 : Nibble).toNat := by decide

/-- A dump of one register at the last address, then other registers, then the load. -/
theorem witness_DumpThenLoadRestoresTheRegisters :
    ∃ s t t' u : State, s.mem.wf = true ∧ s.fault = none ∧ exec (.ldMemV 0) s = .next t ∧ t.fault = none ∧
      t'.fault = none ∧ t'.index = s.index ∧ t'.reg 0 ≠ s.reg 0 ∧
      (∀ k, k ≤ (0 : Nibble).toNat → Memory.read t'.mem (s.index.toNat + k) = Memory.read t.mem (s.index.toNat + k)) ∧
      exec (.ldVMem 0) t' = .next u :=
  ⟨(indexed 0xFFF).setReg 0 7, _, after ((indexed 0xFFF).setReg 0 7) 0xF055 |>.setReg 0 9, _, rfl, rfl, rfl, rfl, rfl, rfl,
    by decide, by decide, rfl⟩

/-- A dump of two bytes at the address after the dump. -/
theorem witness_StoredBytesAreFetchedNext :
    ∃ s t : State, s.mem.wf = true ∧ s.fault = none ∧ exec (.ldMemV 1) s = .next t ∧ t.fault = none ∧
      (1 : Nibble).toNat = (0 : Nibble).toNat + 1 ∧ (1 : Nibble).toNat ≤ (1 : Nibble).toNat ∧
      t.pc.toNat = s.index.toNat + (0 : Nibble).toNat :=
  ⟨indexed 0x202, _, rfl, rfl, rfl, rfl, rfl, by decide, rfl⟩

/-- A one-row sprite with bit 0 set at the last address, its origin 7 columns before the last pixel. -/
def lastPixel : State := with01 { State.reset with mem := [(0xFFF, 1)], index := 0xFFF } 56 31

/-- The same, its origin one column further: the bit is past the last pixel. -/
def pastLastPixel : State := with01 lastPixel 57 31

theorem setBit_lastPixel {s : State} (hm : s.mem = [(0xFFF, 1)]) (hi : s.index = 0xFFF) {r c : Nat} :
    SetBit s 1 r c ↔ r = 0 ∧ c = 7 := by
  constructor
  · rintro ⟨h1, h2, h3⟩
    have hr : r = 0 := by simpa using h1
    subst hr
    rw [hm, hi] at h3
    revert h2 h3
    revert c
    decide
  · rintro ⟨rfl, rfl⟩
    exact ⟨by decide, by decide, by rw [hm, hi]; decide⟩

/-- Pixel 2047 is drawn and pixel 0 is not; with it lit before, a collision; under Literal no set bit is out; under Clip and
Wrap, and at height 0 with any I, nothing more is asked. -/
theorem witness_DrawFlipsTheAimedPixels :
    (lastPixel.index.toNat + (1 : Nibble).toNat ≤ 0x1000 ∧ lastPixel.params.spriteEdge = .literal ∧
      (∀ r c, SetBit lastPixel 1 r c → spriteIndex (lastPixel.reg 0) (lastPixel.reg 1) r c ≤ 2047) ∧
      Drawn lastPixel 0 1 1 2047 ∧ ¬ Drawn lastPixel 0 1 1 0) ∧
    (Drawn { lastPixel with disp := Frame.toggle Frame.blank 2047 } 0 1 1 2047 ∧
      (Frame.toggle Frame.blank 2047).lit 2047 = true) ∧
    (0 : Nibble).toNat = 0 ∧
    (({ lastPixel with params := ⟨.clip, .fault⟩ } : State).params.spriteEdge ≠ .literal ∧
      ({ lastPixel with params := ⟨.wrap, .fault⟩ } : State).params.spriteEdge ≠ .literal) := by
  have hd : ∀ r c, SetBit lastPixel 1 r c → spriteIndex (lastPixel.reg 0) (lastPixel.reg 1) r c = 2047 := by
    intro r c h
    obtain ⟨rfl, rfl⟩ := (setBit_lastPixel rfl rfl).1 h
    rfl
  refine ⟨⟨by decide, rfl, fun r c h => (hd r c h).le, ⟨0, 7, (setBit_lastPixel rfl rfl).2 ⟨rfl, rfl⟩, by decide, by decide⟩, ?_⟩,
    ⟨⟨0, 7, (setBit_lastPixel rfl rfl).2 ⟨rfl, rfl⟩, by decide, by decide⟩, by decide⟩, rfl, nofun, nofun⟩
  rintro ⟨r, c, h, ha, _⟩
  have h0 : (0 : Nat) = 2047 := ha.trans (hd r c h)
  omega

theorem witness_SpriteEdgeDecidesTheTargets :
    (∃ t, lastPixel.fault = none ∧ exec (.drw 0 1 1) lastPixel = .next t ∧ t.fault = none) ∧
    (∃ t, pastLastPixel.fault = none ∧ exec (.drw 0 1 1) pastLastPixel = .next t ∧ t.fault ≠ none) :=
  ⟨⟨_, rfl, rfl, rfl⟩, ⟨_, rfl, rfl, nofun⟩⟩

/-- A row at 0x1000, and the first bit past pixel 2047. -/
theorem witness_DrawChecksMemoryThenDisplay :
    ((2 : Nibble).toNat ≠ 0 ∧ (indexed 0xFFF).index.toNat + (2 : Nibble).toNat > 0x1000) ∧
    (pastLastPixel.index.toNat + (1 : Nibble).toNat ≤ 0x1000 ∧ pastLastPixel.params.spriteEdge = .literal ∧
      SetBit pastLastPixel 1 0 7 ∧ spriteIndex (pastLastPixel.reg 0) (pastLastPixel.reg 1) 0 7 > 2047 ∧
      ∀ r' c', SetBit pastLastPixel 1 r' c' → (r' < 0 ∨ (r' = 0 ∧ c' < 7)) →
        spriteIndex (pastLastPixel.reg 0) (pastLastPixel.reg 1) r' c' ≤ 2047) := by
  refine ⟨by decide, by decide, rfl, (setBit_lastPixel rfl rfl).2 ⟨rfl, rfl⟩, by decide, fun r' c' h hlt => ?_⟩
  obtain ⟨rfl, rfl⟩ := (setBit_lastPixel rfl rfl).1 h
  omega

theorem witness_DoubleDrawRestoresTheScreen :
    ∃ t, (0 : Nibble) ≠ 15 ∧ (1 : Nibble) ≠ 15 ∧ lastPixel.fault = none ∧ exec (.drw 0 1 1) lastPixel = .next t ∧
      t.fault = none ∧ lastPixel.disp.lit 2047 = false :=
  ⟨_, by decide, by decide, rfl, rfl, rfl, by decide⟩

/-- 16, and key 15. -/
theorem witness_KeySkipsTestTheLatch :
    ((State.reset.setReg 1 16).reg 1).toNat > 15 ∧ ((State.reset.setReg 1 15).reg 1).toNat < 16 := by decide

/-- No key; key 0; key 15 alone. -/
theorem witness_WaitForKeyTakesTheLeastKey :
    (∀ k, (h : k < 16) → State.reset.key[k] = false) ∧ (keys [0, 15])[0] = true ∧
    ((keys [15])[15] = true ∧ ∀ j, (hj : j < 15) → (keys [15])[j] = false) := by decide

theorem witness_WaitingChangesOnlyTheTimers :
    (State.reset.withFetchWord 16 0xFF0A).fault = none ∧ (State.reset.withFetchWord 16 0xFF0A).fetch = some 0xFF0A ∧
    decodeWord 0xFF0A = .ldK 15 ∧ ∀ j, (h : j < 16) → (State.reset.withFetchWord 16 0xFF0A).key[j] = false :=
  ⟨rfl, rfl, rfl, by decide⟩

/-- Two cycles of no-ops. -/
theorem witness_TimersCountDownToZero :
    ∃ s t, Cycles (fun i => ∀ x, i ≠ .ldDt x) 2 s t ∧ Cycles (fun i => ∀ x, i ≠ .ldSt x) 2 s t ∧ s.dt = 1 ∧ s.st = 2 :=
  ⟨{ State.reset with dt := 1, st := 2 }, _,
    ⟨_, 0, rfl, fun _ => nofun, ⟨rfl, rfl, rfl⟩, _, 0, rfl, fun _ => nofun, ⟨rfl, rfl, rfl⟩, rfl⟩,
    ⟨_, 0, rfl, fun _ => nofun, ⟨rfl, rfl, rfl⟩, _, 0, rfl, fun _ => nofun, ⟨rfl, rfl, rfl⟩, rfl⟩, rfl, rfl⟩

/-- The 16th call and its return, other registers changed in between. -/
theorem witness_CallThenReturnComesBack :
    ∃ t t' u : State, (deep 15).fault = none ∧ exec (.call 0x400) (deep 15) = .next t ∧ t.fault = none ∧
      t'.stack = t.stack ∧ t'.sp = t.sp ∧ t'.fault = none ∧ exec (.ret 0) t' = .next u ∧ t' ≠ t :=
  ⟨_, (after (deep 15) 0x2400).setReg 0 1, _, rfl, rfl, rfl, rfl, rfl, rfl, rfl, by decide⟩

end Sys2Proof.Tests
end

/-! PROOFS, family 10_state. What every instruction answers, through one handler function; then the obligations. -/

section

/-! ## The handlers

`exec` is one shape, `execute`, around what each instruction does once pc is advanced. `handler` names that inner part, so
that a statement about all instructions needs no case split for the advance and for the fault record. -/

namespace Sys2Proof.Machine

open Sys2Proof.Config

/-- What each instruction does with pc advanced (30_encoding R103): the next state, or the fault its rule raises. -/
def handler : Instr → State → Except Raised State
  | .cls _, s        => .ok (s.setDisp Frame.blank)
  | .ret _, s        => s.popPc
  | .jp nnn, s       => .ok (s.setPc (zextAddr nnn))
  | .call nnn, s     =>
    match s.push s.pc with
    | .ok t    => .ok (t.setPc (zextAddr nnn))
    | .error r => .error r
  | .seImm x nn, s   => .ok (s.skipIf (s.reg x = nn))
  | .sneImm x nn, s  => .ok (s.skipIf (s.reg x ≠ nn))
  | .seReg x y _, s  => .ok (s.skipIf (s.reg x = s.reg y))
  | .ldImm x nn, s   => .ok (s.setReg x nn)
  | .addImm x nn, s  => .ok (s.setReg x (s.reg x + nn))
  | .ldReg x y, s    => .ok (s.setReg x (s.reg y))
  | .or x y, s       => .ok (s.setReg x (s.reg x ||| s.reg y))
  | .and x y, s      => .ok (s.setReg x (s.reg x &&& s.reg y))
  | .xor x y, s      => .ok (s.setReg x (s.reg x ^^^ s.reg y))
  | .addReg x y, s   => .ok (s.setFlagThenReg x (carryFlag (s.reg x) (s.reg y)) (s.reg x + s.reg y))
  | .sub x y, s      => .ok (s.setFlagThenReg x (noBorrowFlag (s.reg x) (s.reg y)) (s.reg x - s.reg y))
  | .shr x _, s      => .ok (s.setFlagThenReg x (shiftedOutRight (s.reg x)) (s.reg x >>> 1))
  | .subn x y, s     => .ok (s.setFlagThenReg x (noBorrowFlag (s.reg y) (s.reg x)) (s.reg y - s.reg x))
  | .shl x _, s      => .ok (s.setFlagThenReg x (shiftedOutLeft (s.reg x)) (s.reg x <<< 1))
  | .sneReg x y _, s => .ok (s.skipIf (s.reg x ≠ s.reg y))
  | .ldI nnn, s      => .ok (s.setIndex (zextAddr nnn))
  | .jpV0 nnn, s     => .ok (s.setPc (zextAddr nnn + zextByte (s.reg 0)))
  | .rnd x nn, s     => .ok (s.afterDraw.setReg x (s.drawByte &&& nn))
  | .drw x y n, s    => s.drawSprite x y n
  | .skp x, s        =>
    if (s.reg x).toNat > 15 then .error ⟨.keyIndex, (s.reg x).toNat⟩
    else .ok (s.skipIf (s.pressed (s.reg x).toNat))
  | .sknp x, s       =>
    if (s.reg x).toNat > 15 then .error ⟨.keyIndex, (s.reg x).toNat⟩
    else .ok (s.skipIf (!s.pressed (s.reg x).toNat))
  | .ldVDt x, s      => .ok (s.setReg x s.dt)
  | .ldK x, s        =>
    match s.leastKey with
    | some k => .ok (s.setReg x (BitVec.ofNat 8 k))
    | none   => .ok (s.setPc (s.pc - 2))
  | .ldDt x, s       => .ok (s.setDt (s.reg x))
  | .ldSt x, s       => .ok (s.setSt (s.reg x))
  | .addI x, s       => .ok (s.setIndex (s.index + zextByte (s.reg x)))
  | .ldF x, s        =>
    if (s.reg x).toNat > 15 then .error ⟨.invalidDigit, (s.reg x).toNat⟩
    else .ok (s.setIndex (BitVec.ofNat 16 (fontBase + 5 * (s.reg x).toNat)))
  | .ldB x, s        => s.storeAtIndex (bcdDigits (s.reg x))
  | .ldMemV x, s     => s.storeAtIndex (s.regsTo x)
  | .ldVMem x, s     => s.loadFromIndex x
  | .sys _, s | .nop88 _ _, s | .nop89 _ _, s | .nop8A _ _, s | .nop8B _ _, s | .nop8C _ _, s | .nop8D _ _, s
  | .nop8F _ _, s | .nopE _ _, s | .nopF _ _, s => .ok s

/-- Every instruction of the model is its handler in the shape `execute`. -/
theorem exec_eq_execute (i : Instr) (s : State) : exec i s = execute i s (handler i) := by
  cases i with
  | ldK x =>
    simp only [exec, execLdK, complete_eq, execute, handler]
    cases s.advance.leastKey <;> rfl
  | _ => rfl

/-- What an instruction answers: its handler's state, or the start state with the record of the fault it raised
(60_exceptions R334). -/
theorem exec_next_cases {i : Instr} {s t : State} (h : exec i s = .next t) :
    handler i s.advance = .ok t ∨
      ∃ r, handler i s.advance = .error r ∧ t = s.takeFault r (some (encode i)) := by
  rw [exec_eq_execute] at h
  rcases execute_cases i s (handler i) with ⟨u, hu, e⟩ | ⟨r, hr, e⟩
  · cases e.symm.trans h
    exact .inl hu
  · cases e.symm.trans h
    exact .inr ⟨r, hr, rfl⟩

/-- A cycle's end answers the instruction's state, ticked or not (R104). -/
theorem endCycle_next {o : Host.Outcome State Fault Refusal} {t : State} (h : endCycle o = .next t) :
    ∃ u, o = .next u ∧ (t = u.tick ∨ t = u) := by
  cases o with
  | next u =>
    refine ⟨u, rfl, ?_⟩
    simp only [endCycle, Host.Outcome.next.injEq] at h
    split at h
    · exact .inl h.symm
    · exact .inr h.symm
  | fault f => cases h
  | refused r => cases h

/-! ## What a handler's operation answers when it completes -/

/-- A guarded operation completes only when its guard does not hold. -/
theorem ite_error_ok_iff {c : Prop} [Decidable c] {r : Raised} {t u : State} :
    (if c then .error r else .ok t : Except Raised State) = .ok u ↔ ¬ c ∧ t = u := by
  by_cases hc : c <;> simp [hc]

theorem State.push_ok {s t : State} {a : Word} (h : s.push a = .ok t) :
    ∃ hs : s.sp.val < 16, t = { s with stack := s.stack.set s.sp.val a hs, sp := ⟨s.sp.val + 1, by omega⟩ } := by
  rcases s.push_cases a with ⟨-, e⟩ | ⟨hs, e⟩
  · cases e.symm.trans h
  · cases e.symm.trans h
    exact ⟨hs, rfl⟩

theorem State.popPc_ok {s t : State} (h : s.popPc = .ok t) :
    ∃ _hs : s.sp.val ≠ 0, t = { s with pc := s.stack[s.sp.val - 1], sp := ⟨s.sp.val - 1, by omega⟩ } := by
  rcases s.popPc_cases with ⟨-, e⟩ | ⟨hs, e⟩
  · cases e.symm.trans h
  · cases e.symm.trans h
    exact ⟨hs, rfl⟩

theorem State.storeAtIndex_ok {s t : State} {bs : List Byte} (h : s.storeAtIndex bs = .ok t) :
    t = { s with mem := Memory.writeBytes s.mem s.index.toNat bs } := by
  unfold State.storeAtIndex at h
  split at h
  · cases h
  · cases h
    rfl

theorem State.loadFromIndex_ok {s t : State} {x : Nibble} (h : s.loadFromIndex x = .ok t) :
    t = { s with v := loadedRegs s.v s.mem s.index.toNat x } := by
  rw [State.loadFromIndex_eq] at h
  exact (ite_error_ok_iff.1 h).2.symm

theorem State.drawSprite_ok {s t : State} {x y n : Nibble} (h : s.drawSprite x y n = .ok t) :
    ∃ d b, t = (s.setDisp d).setReg vf b := by
  rcases s.drawSprite_cases x y n with ⟨-, -, e⟩ | ⟨-, _, _, _, -, -, -, e⟩ | ⟨-, -, e⟩
  · cases e.symm.trans h
  · cases e.symm.trans h
  · cases e.symm.trans h
    exact ⟨_, _, rfl⟩

theorem handler_call_ok {nnn : Addr} {s t : State} (h : handler (.call nnn) s = .ok t) :
    ∃ u, s.push s.pc = .ok u ∧ t = u.setPc (zextAddr nnn) := by
  simp only [handler] at h
  split at h
  · cases h
    exact ⟨_, ‹_›, rfl⟩
  · cases h

theorem handler_ldK_ok {x : Nibble} {s t : State} (h : handler (.ldK x) s = .ok t) :
    (∃ b, t = s.setReg x b) ∨ t = s.setPc (s.pc - 2) := by
  simp only [handler] at h
  split at h
  · cases h
    exact .inl ⟨_, rfl⟩
  · cases h
    exact .inr rfl

end Sys2Proof.Machine

end

section

/-! ## O14: pc and the stack entries stay in range -/

namespace Sys2Proof.Claims

open Sys2Proof Sys2Proof.Machine

/-- `AddressesInRange` with the bound of pc as a parameter: within a cycle pc is known more closely than between cycles. -/
def AddressesWithin (n : Nat) (s : State) : Prop :=
  s.pc.toNat ≤ n ∧ ∀ k, (h : k < 16) → (s.stack[k]).toNat ≤ 0x1000

theorem addressesInRange_iff {s : State} : AddressesInRange s ↔ AddressesWithin 0x10FE s := Iff.rfl

section
variable {n m : Nat} {s t : State}

theorem AddressesWithin.mono (h : AddressesWithin n s) (hnm : n ≤ m) : AddressesWithin m s := ⟨h.1.trans hnm, h.2⟩

/-- An operation that touches neither pc nor the stack. -/
theorem AddressesWithin.of_eq (h : AddressesWithin n s) (hpc : t.pc = s.pc) (hst : t.stack = s.stack) :
    AddressesWithin n t := by
  unfold AddressesWithin
  rw [hpc, hst]
  exact h

theorem AddressesWithin.setPc {a : Word} (h : AddressesWithin n s) (ha : a.toNat ≤ m) : AddressesWithin m (s.setPc a) :=
  ⟨ha, h.2⟩

theorem AddressesWithin.advance (h : AddressesWithin n s) : AddressesWithin (n + 2) s.advance := by
  refine ⟨?_, h.2⟩
  have hpc := h.1
  rw [State.advance_pc]
  bv_omega

theorem AddressesWithin.skipIf (h : AddressesWithin n s) (c : Bool) : AddressesWithin (n + 2) (s.skipIf c) := by
  cases c with
  | false => exact h.mono (by omega)
  | true => exact h.advance

/-- The pushed address is the only new entry. -/
theorem AddressesWithin.push {a : Word} (h : AddressesWithin n s) (ha : a.toNat ≤ 0x1000) (e : s.push a = .ok t) :
    AddressesWithin n t := by
  obtain ⟨hs, rfl⟩ := State.push_ok e
  refine ⟨h.1, fun k hk => ?_⟩
  dsimp only
  rw [Vector.getElem_set]
  split
  · exact ha
  · exact h.2 k hk

/-- The popped pc is an entry. -/
theorem AddressesWithin.popPc (h : AddressesWithin n s) (e : s.popPc = .ok t) : AddressesWithin 0x1000 t := by
  obtain ⟨hs, rfl⟩ := State.popPc_ok e
  exact ⟨h.2 _ _, h.2⟩

end

theorem toNat_zextAddr_le (nnn : Addr) : (zextAddr nnn).toNat ≤ 0xFFF := by
  rw [zextAddr]; bv_omega

/-- The largest target of a jump, 0xFFF + 0xFF: why the bound is 0x10FE (10_state R36). -/
theorem toNat_zextAddr_add_zextByte_le (nnn : Addr) (b : Byte) : (zextAddr nnn + zextByte b).toNat ≤ 0x10FE := by
  rw [zextAddr, zextByte]; bv_omega

/-- An instruction that can be fetched leaves pc at a jump target, at an entry, or at most 4 past its own address; and it
pushes at most 0xFFE + 2. -/
theorem handler_addressesWithin {i : Instr} {s t : State} (hs : AddressesWithin 0xFFE s)
    (h : handler i s.advance = .ok t) : AddressesWithin 0x10FE t := by
  have ha : AddressesWithin 0x1000 s.advance := hs.advance
  suffices hr : ∃ n ≤ 0x10FE, AddressesWithin n t from hr.elim fun _ ⟨hn, ht⟩ => ht.mono hn
  cases i with
  | cls | sys | ldImm | addImm | ldReg | or | and | xor | addReg | sub | shr | subn | shl | rnd | ldI | addI
  | ldVDt | ldDt | ldSt | nop88 | nop89 | nop8A | nop8B | nop8C | nop8D | nop8F | nopE | nopF =>
    obtain rfl := Except.ok.inj h
    exact ⟨0x1000, by omega, ha.of_eq rfl rfl⟩
  | seImm | sneImm | seReg | sneReg =>
    obtain rfl := Except.ok.inj h
    exact ⟨0x1002, by omega, ha.skipIf _⟩
  | skp | sknp =>
    obtain ⟨-, rfl⟩ := ite_error_ok_iff.1 h
    exact ⟨0x1002, by omega, ha.skipIf _⟩
  | jp nnn =>
    obtain rfl := Except.ok.inj h
    exact ⟨0xFFF, by omega, ha.setPc (toNat_zextAddr_le nnn)⟩
  | jpV0 nnn =>
    obtain rfl := Except.ok.inj h
    exact ⟨0x10FE, le_rfl, ha.setPc (toNat_zextAddr_add_zextByte_le nnn _)⟩
  | call nnn =>
    obtain ⟨u, hu, rfl⟩ := handler_call_ok h
    exact ⟨0xFFF, by omega, (ha.push ha.1 hu).setPc (toNat_zextAddr_le nnn)⟩
  | ret => exact ⟨0x1000, by omega, ha.popPc h⟩
  | ldK =>
    rcases handler_ldK_ok h with ⟨b, rfl⟩ | rfl
    · exact ⟨0x1000, by omega, ha.of_eq rfl rfl⟩
    · rw [State.advance_pc, BitVec.add_sub_cancel]
      exact ⟨0xFFE, by omega, ha.setPc hs.1⟩
  | drw =>
    obtain ⟨d, b, rfl⟩ := State.drawSprite_ok h
    exact ⟨0x1000, by omega, ha.of_eq rfl rfl⟩
  | ldF =>
    obtain ⟨-, rfl⟩ := ite_error_ok_iff.1 h
    exact ⟨0x1000, by omega, ha.of_eq rfl rfl⟩
  | ldB | ldMemV =>
    obtain rfl := State.storeAtIndex_ok h
    exact ⟨0x1000, by omega, ha.of_eq rfl rfl⟩
  | ldVMem =>
    obtain rfl := State.loadFromIndex_ok h
    exact ⟨0x1000, by omega, ha.of_eq rfl rfl⟩

/-- With the fault record included, which changes no address. -/
theorem exec_addressesWithin {i : Instr} {s t : State} (hs : AddressesWithin 0xFFE s) (h : exec i s = .next t) :
    AddressesWithin 0x10FE t := by
  rcases exec_next_cases h with hok | ⟨r, -, rfl⟩
  · exact handler_addressesWithin hs hok
  · exact (hs.of_eq rfl rfl).mono (by omega)

/-- Settles O14: a state out of fetch range changes no address; from one in fetch range `exec_addressesWithin` bounds
what the instruction leaves, and the tick touches neither pc nor the stack. -/
theorem stepKeepsAddressesInRange : Obligations.StepKeepsAddressesInRange := by
  intro s t hs h
  rw [addressesInRange_iff] at hs ⊢
  rcases step_cases s with ⟨-, e⟩ | ⟨-, -, e⟩ | ⟨w, -, hw, e⟩
  · cases e.symm.trans h
    exact hs
  · cases e.symm.trans h
    exact hs.of_eq rfl rfl
  · obtain ⟨u, hu, ht⟩ := endCycle_next (e.symm.trans h)
    rcases s.fetch_cases with ⟨-, hnone⟩ | ⟨hpc, -⟩
    · cases hnone.symm.trans hw
    · have hr : AddressesWithin 0x10FE u := exec_addressesWithin ⟨hpc, hs.2⟩ hu
      rcases ht with rfl | rfl
      · exact hr.of_eq rfl rfl
      · exact hr

end Sys2Proof.Claims

end

section

/-! ## O10: each instruction changes only its own parts -/

namespace Sys2Proof.Claims

open Sys2Proof Sys2Proof.Machine

/-- From `s` to `t` only the parts `ps` may have changed, and of the general registers only those in `w`. -/
structure ChangesOnly (ps : List Part) (w : Nibble → Prop) (s t : State) : Prop where
  keeps : KeepsAllBut ps s t
  regs  : ∀ r, ¬ w r → t.reg r = s.reg r

theorem Part.Same.refl (p : Part) (s : State) : p.Same s s := by
  cases p <;> simp [Part.Same]

theorem Part.Same.trans {p : Part} {s t u : State} (h : p.Same s t) (h' : p.Same t u) : p.Same s u := by
  cases p with
  | memory | registers => exact fun a => (h' a).trans (h a)
  | stack => exact ⟨h'.1.trans h.1, h'.2.trans h.2⟩
  | _ => exact Eq.trans h' h

namespace ChangesOnly

variable {ps : List Part} {w : Nibble → Prop} {s t u : State}

theorem refl (ps : List Part) (w : Nibble → Prop) (s : State) : ChangesOnly ps w s s :=
  ⟨fun p _ => .refl p s, fun _ _ => rfl⟩

theorem trans (h : ChangesOnly ps w s t) (h' : ChangesOnly ps w t u) : ChangesOnly ps w s u :=
  ⟨fun p hp => (h.keeps p hp).trans (h'.keeps p hp), fun r hr => (h'.regs r hr).trans (h.regs r hr)⟩

/-- pc is in no list. -/
theorem setPc (a : Word) : ChangesOnly ps w s (s.setPc a) :=
  ⟨fun p _ => by cases p <;> simp [Part.Same], fun _ _ => rfl⟩

theorem advance : ChangesOnly ps w s s.advance := setPc (s.pc + 2)

theorem skipIf (c : Bool) : ChangesOnly ps w s (s.skipIf c) := by
  cases c with
  | false => exact refl ps w s
  | true => exact advance

/-- An operation that keeps every register and every part but one, both read off the fields of the two states. -/
theorem of_part {q : Part} (hq : q ∈ ps)
    (hp : ∀ p, p ≠ q → p.Same s t := by intro p hp; cases p <;> simp [Part.Same, State.reg] at hp ⊢)
    (hr : ∀ r, t.reg r = s.reg r := by intro r; rfl) : ChangesOnly ps w s t :=
  ⟨fun p hn => hp p fun e => hn (e ▸ hq), fun r _ => hr r⟩

theorem setIndex (hq : .index ∈ ps) (a : Word) : ChangesOnly ps w s (s.setIndex a) :=
  of_part hq

theorem setDisp (hq : .screen ∈ ps) (d : Frame) : ChangesOnly ps w s (s.setDisp d) :=
  of_part hq

theorem setDt (hq : .delay ∈ ps) (b : Byte) : ChangesOnly ps w s (s.setDt b) :=
  of_part hq

theorem setSt (hq : .sound ∈ ps) (b : Byte) : ChangesOnly ps w s (s.setSt b) :=
  of_part hq

theorem afterDraw (hq : .random ∈ ps) : ChangesOnly ps w s s.afterDraw :=
  of_part hq

theorem takeFault (hq : .fault ∈ ps) (r : Raised) (o : Option Word) : ChangesOnly ps w s (s.takeFault r o) :=
  of_part hq

theorem push {a : Word} (hq : .stack ∈ ps) (h : s.push a = .ok t) : ChangesOnly ps w s t := by
  obtain ⟨_, rfl⟩ := State.push_ok h
  exact of_part hq

theorem popPc (hq : .stack ∈ ps) (h : s.popPc = .ok t) : ChangesOnly ps w s t := by
  obtain ⟨_, rfl⟩ := State.popPc_ok h
  exact of_part hq

theorem storeAtIndex {bs : List Byte} (hq : .memory ∈ ps) (h : s.storeAtIndex bs = .ok t) : ChangesOnly ps w s t := by
  obtain rfl := State.storeAtIndex_ok h
  exact of_part hq

theorem setReg {x : Nibble} (hq : .registers ∈ ps) (hx : w x) (b : Byte) : ChangesOnly ps w s (s.setReg x b) where
  keeps p hp := by cases p <;> simp [Part.Same, hq] at hp ⊢
  regs r hr := by rw [State.setReg_reg, if_neg fun e : r = x => hr (e ▸ hx)]

theorem setFlagThenReg {x : Nibble} (hq : .registers ∈ ps) (hf : w vf) (hx : w x) (f b : Byte) :
    ChangesOnly ps w s (s.setFlagThenReg x f b) :=
  (setReg hq hf f).trans (setReg hq hx b)

theorem drawSprite {x y n : Nibble} (hr : .registers ∈ ps) (hd : .screen ∈ ps) (hf : w vf)
    (h : s.drawSprite x y n = .ok t) : ChangesOnly ps w s t := by
  obtain ⟨d, b, rfl⟩ := State.drawSprite_ok h
  exact (setDisp hd d).trans (setReg hr hf b)

theorem loadFromIndex {x : Nibble} (hq : .registers ∈ ps) (hw : ∀ r, r.toNat ≤ x.toNat → w r)
    (h : s.loadFromIndex x = .ok t) : ChangesOnly ps w s t := by
  obtain rfl := State.loadFromIndex_ok h
  exact
    { keeps := fun p hp => by cases p <;> simp [Part.Same, hq] at hp ⊢
      regs := fun r hr => by rw [reg_loadedRegs, if_neg fun hle => hr (hw r hle)] }

end ChangesOnly

/-- The fault record is in the list of the instruction that raises it. -/
theorem fault_mem_mayChange {i : Instr} {s : State} {r : Raised} (h : handler i s = .error r) :
    .fault ∈ mayChange i := by
  cases i with
  | ret | call | drw | skp | sknp | ldF | ldB | ldMemV | ldVMem => simp [mayChange]
  | ldK =>
    simp only [handler] at h
    split at h <;> cases h
  | _ => cases h

/-- A handler that completes changes what its instruction's list and register set allow. -/
theorem handler_changesOnly {i : Instr} {s t : State} (h : handler i s = .ok t) :
    ChangesOnly (mayChange i) (mayWrite i) s t := by
  cases i with
  | sys | nop88 | nop89 | nop8A | nop8B | nop8C | nop8D | nop8F | nopE | nopF =>
    obtain rfl := Except.ok.inj h
    exact .refl _ _ s
  | jp | jpV0 =>
    obtain rfl := Except.ok.inj h
    exact .setPc _
  | seImm | sneImm | seReg | sneReg =>
    obtain rfl := Except.ok.inj h
    exact .skipIf _
  | skp | sknp =>
    obtain ⟨-, rfl⟩ := ite_error_ok_iff.1 h
    exact .skipIf _
  | ldImm | addImm | ldReg | or | and | xor | ldVDt =>
    obtain rfl := Except.ok.inj h
    exact .setReg (.head _) (by simp [mayWrite]) _
  | addReg | sub | shr | subn | shl =>
    obtain rfl := Except.ok.inj h
    exact .setFlagThenReg (.head _) (.inr rfl) (.inl rfl) _ _
  | rnd =>
    obtain rfl := Except.ok.inj h
    exact (ChangesOnly.afterDraw (.tail _ (.head _))).trans (.setReg (.head _) (by simp [mayWrite]) _)
  | ldK =>
    rcases handler_ldK_ok h with ⟨b, rfl⟩ | rfl
    · exact .setReg (.head _) (by simp [mayWrite]) b
    · exact .setPc _
  | ldI | addI =>
    obtain rfl := Except.ok.inj h
    exact .setIndex (.head _) _
  | ldF =>
    obtain ⟨-, rfl⟩ := ite_error_ok_iff.1 h
    exact .setIndex (.head _) _
  | cls =>
    obtain rfl := Except.ok.inj h
    exact .setDisp (.head _) _
  | ldDt =>
    obtain rfl := Except.ok.inj h
    exact .setDt (.head _) _
  | ldSt =>
    obtain rfl := Except.ok.inj h
    exact .setSt (.head _) _
  | ret => exact .popPc (.head _) h
  | call =>
    obtain ⟨u, hu, rfl⟩ := handler_call_ok h
    exact (ChangesOnly.push (.head _) hu).trans (.setPc _)
  | drw => exact .drawSprite (.head _) (.tail _ (.head _)) rfl h
  | ldB | ldMemV => exact .storeAtIndex (.head _) h
  | ldVMem => exact .loadFromIndex (.head _) (fun _ hle => hle) h

/-- Settles O10: the advance of pc changes no part, a completing handler only those of its instruction, and a fault only
the record, which is then in the list. -/
theorem eachInstructionChangesOnlyItsOwnParts : Obligations.EachInstructionChangesOnlyItsOwnParts := by
  intro i s t h
  have hc : ChangesOnly (mayChange i) (mayWrite i) s t := by
    rcases exec_next_cases h with hok | ⟨r, herr, rfl⟩
    · exact ChangesOnly.advance.trans (handler_changesOnly hok)
    · exact .takeFault (fault_mem_mayChange herr) r _
  exact ⟨hc.keeps, hc.regs⟩

end Sys2Proof.Claims

end

section

/-! ## O16: the canonical form is unique -/

namespace Sys2Proof.Machine

theorem Memory.read_cons_self (a : Nat) (x : Byte) (m : Memory) : Memory.read ((a, x) :: m) a = x := by
  simp [Memory.read]

theorem Memory.read_cons_other {a b : Nat} (x : Byte) (m : Memory) (h : b ≠ a) :
    Memory.read ((a, x) :: m) b = Memory.read m b := by
  simp only [Memory.read, if_neg h]

/-- A listed cell differs from the initial content, so a canonical memory of equal content begins no later. -/
theorem Memory.le_of_read_eq {lo lo' a : Nat} {x : Byte} {m m' : Memory} (hm : Memory.wfFrom lo ((a, x) :: m) = true)
    (hm' : Memory.wfFrom lo' m' = true) (h : Memory.read ((a, x) :: m) a = Memory.read m' a) : lo' ≤ a := by
  obtain ⟨-, -, hx, -⟩ := Memory.wfFrom_cons.1 hm
  by_contra hlt
  rw [Memory.read_cons_self, Memory.read_below hm' (by omega)] at h
  exact hx h

/-- Equal contents behind a common first cell: below and at its address both rests read the initial content. -/
theorem Memory.read_tail_eq {a : Nat} {x : Byte} {m m' : Memory} (hm : Memory.wfFrom (a + 1) m = true)
    (hm' : Memory.wfFrom (a + 1) m' = true)
    (h : ∀ b, Memory.read ((a, x) :: m) b = Memory.read ((a, x) :: m') b) (b : Nat) :
    Memory.read m b = Memory.read m' b := by
  by_cases hb : b = a
  · rw [Memory.read_below hm (by omega), Memory.read_below hm' (by omega)]
  · simpa only [Memory.read_cons_other x _ hb] using h b

/-- By induction on both lists: their first addresses bound each other, so the first cells are the same. -/
theorem Memory.eq_of_read_eq {lo lo' : Nat} {m m' : Memory} (hm : Memory.wfFrom lo m = true)
    (hm' : Memory.wfFrom lo' m' = true) (h : ∀ a, Memory.read m a = Memory.read m' a) : m = m' := by
  induction m generalizing lo lo' m' with
  | nil =>
    cases m' with
    | nil => rfl
    | cons c m' =>
      obtain ⟨b, y⟩ := c
      have := Memory.le_of_read_eq hm' (lo' := b + 1) (m' := []) rfl (h b).symm
      omega
  | cons c m ih =>
    obtain ⟨a, x⟩ := c
    cases m' with
    | nil =>
      have := Memory.le_of_read_eq hm (lo' := a + 1) (m' := []) rfl (h a)
      omega
    | cons c' m' =>
      obtain ⟨b, y⟩ := c'
      obtain ⟨-, ha, hx, ht⟩ := Memory.wfFrom_cons.1 hm
      obtain ⟨-, hb, hy, ht'⟩ := Memory.wfFrom_cons.1 hm'
      have hba : b ≤ a := Memory.le_of_read_eq hm (Memory.wfFrom_cons.2 ⟨le_rfl, hb, hy, ht'⟩) (h a)
      have hab : a ≤ b := Memory.le_of_read_eq hm' (Memory.wfFrom_cons.2 ⟨le_rfl, ha, hx, ht⟩) (h b).symm
      obtain rfl : a = b := by omega
      obtain rfl : x = y := by simpa only [Memory.read_cons_self] using h a
      rw [ih ht ht' (Memory.read_tail_eq ht ht' h)]

/-- Settles O16: the first cells agree, since each is where the other memory first differs from the initial content. -/
theorem equalContentsAreEqualMemories : Obligations.EqualContentsAreEqualMemories :=
  fun _ _ hm hm' h => Memory.eq_of_read_eq hm hm' h

end Sys2Proof.Machine

end

section

/-! ## O15 and O18: the reset state -/

namespace Sys2Proof.Machine

open Sys2Proof.Config Sys2Proof.Claims

/-- The font's cells initially hold the default font (20_memory R75, R76). -/
theorem Memory.initial_font {k : Nat} (h : k < 80) : Memory.initial (0x50 + k) = defaultFont[k] := by
  have hr : fontBase ≤ 0x50 + k ∧ 0x50 + k < fontEnd := by simp only [fontBase, fontEnd]; omega
  simp only [Memory.initial, dif_pos hr, fontBase, Nat.add_sub_cancel_left]

theorem fontIntact_reset : FontIntact defaultFont State.reset :=
  ⟨rfl, fun _ h => Memory.initial_font h⟩

theorem addressesInRange_reset : AddressesInRange State.reset :=
  ⟨by decide, fun k h => by simp [State.reset]⟩

/-- Settles O15: one lemma for each of the three invariants at reset. -/
theorem resetMeetsTheInvariants : Obligations.ResetMeetsTheInvariants :=
  ⟨Memory.wf_reset, fontIntact_reset, addressesInRange_reset⟩

/-- Settles O18: copying the default font in lists no cell, and every other default is the reset value. -/
theorem resetIsInitializeWithTheDefaults : Obligations.ResetIsInitializeWithTheDefaults := by
  intro seed
  simp only [initialState, defaultSetup, Memory.writeBytes_defaultFont]
  rfl

end Sys2Proof.Machine

end

/-! PROOFS, family 20_memory. The checked store of a cycle; then the obligations. -/

section

/-! ## The checked store -/

namespace Sys2Proof.Machine

open Sys2Proof.Config

/-- Both checks pass exactly when the run lies in memory and, under `FONT_WRITE = Fault`, misses the font
(42_memory_index R231, 20_memory R78). The empty run passes wherever it starts. -/
theorem checkWrite_eq_none_iff {fw : FontWrite} {i0 n : Nat} :
    checkWrite fw i0 n = none ↔
      n = 0 ∨ (i0 + n ≤ 0x1000 ∧ (fw = .fault → 0xA0 ≤ i0 ∨ i0 + n ≤ 0x50)) := by
  unfold checkWrite
  rw [checkRead_eq, checkFont_eq]
  by_cases hb : n = 0 ∨ i0 + n ≤ 4096
  · simp only [if_pos hb, ite_eq_right_iff, reduceCtorEq, imp_false]
    by_cases hf : fw = .fault
    · simp only [hf, true_and, forall_const]
      omega
    · simp only [hf, false_and, not_false_eq_true, false_implies, and_true, true_iff]
      exact hb
  · simp only [if_neg hb, reduceCtorEq, false_iff]
    exact fun h => hb (h.imp_right And.left)

/-- A completed store passed its checks. -/
theorem State.storeAtIndex_checked {s t : State} {bs : List Byte} (h : s.storeAtIndex bs = .ok t) :
    checkWrite s.params.fontWrite s.index.toNat bs.length = none := by
  unfold State.storeAtIndex at h
  split at h
  · cases h
  · assumption

/-- A completed store of at least one byte lies in memory (R231). -/
theorem State.storeAtIndex_inBounds {s t : State} {bs : List Byte} {k : Nat} (h : s.storeAtIndex bs = .ok t)
    (hk : k < bs.length) : s.index.toNat + k < memSize := by
  rcases checkWrite_eq_none_iff.1 (State.storeAtIndex_checked h) with h0 | ⟨hb, -⟩
  · omega
  · simp only [memSize]
    omega

/-- After a completed store each address of the run reads its byte (20_memory R84). -/
theorem State.read_storeAtIndex {s t : State} {bs : List Byte} {k : Nat} (hm : s.mem.wf = true)
    (h : s.storeAtIndex bs = .ok t) (hk : k < bs.length) : Memory.read t.mem (s.index.toNat + k) = bs[k] := by
  have hb := State.storeAtIndex_inBounds h hk
  obtain rfl := State.storeAtIndex_ok h
  exact Memory.read_writeBytes_inside hm hk hb

/-- After a completed dump the address I + r reads `V[r]` (42_memory_index R237). -/
theorem State.read_dump {s t : State} {x r : Nibble} (hm : s.mem.wf = true) (h : s.storeAtIndex (s.regsTo x) = .ok t)
    (hr : r.toNat ≤ x.toNat) : Memory.read t.mem (s.index.toNat + r.toNat) = s.reg r := by
  rw [State.read_storeAtIndex hm h (by rw [length_regsTo]; omega), getElem_regsTo]
  rfl

/-- From `s` to `t` the parameters are kept and memory changes by one run of bytes that passes the checks of R231, the
empty run where nothing is stored. -/
structure StoresChecked (s t : State) : Prop where
  params : t.params = s.params
  mem    : ∃ a bs, checkWrite s.params.fontWrite a bs.length = none ∧ t.mem = Memory.writeBytes s.mem a bs

section
variable {s t : State}

/-- Nothing stored. -/
theorem StoresChecked.of_eq (hp : t.params = s.params) (hm : t.mem = s.mem) : StoresChecked s t :=
  ⟨hp, 0, [], checkWrite_eq_none_iff.2 (.inl rfl), hm⟩

theorem StoresChecked.storeAtIndex {bs : List Byte} (h : s.storeAtIndex bs = .ok t) : StoresChecked s t := by
  have hc := State.storeAtIndex_checked h
  obtain rfl := State.storeAtIndex_ok h
  exact ⟨rfl, s.index.toNat, bs, hc, rfl⟩

/-- FX33 and FX55 are the only instructions that store (20_memory R71). -/
theorem handler_storesChecked {i : Instr} (h : handler i s = .ok t) : StoresChecked s t := by
  cases i with
  | cls | sys | jp | jpV0 | ldImm | addImm | ldReg | or | and | xor | addReg | sub | shr | subn | shl | rnd | ldI | addI
  | ldVDt | ldDt | ldSt | nop88 | nop89 | nop8A | nop8B | nop8C | nop8D | nop8F | nopE | nopF =>
    obtain rfl := Except.ok.inj h
    exact .of_eq rfl rfl
  | seImm | sneImm | seReg | sneReg =>
    obtain rfl := Except.ok.inj h
    exact .of_eq (s.skipIf_params _) (s.skipIf_mem _)
  | skp | sknp =>
    obtain ⟨-, rfl⟩ := ite_error_ok_iff.1 h
    exact .of_eq (s.skipIf_params _) (s.skipIf_mem _)
  | call =>
    obtain ⟨u, hu, rfl⟩ := handler_call_ok h
    obtain ⟨_, rfl⟩ := State.push_ok hu
    exact .of_eq rfl rfl
  | ret =>
    obtain ⟨_, rfl⟩ := State.popPc_ok h
    exact .of_eq rfl rfl
  | ldK =>
    rcases handler_ldK_ok h with ⟨b, rfl⟩ | rfl
    · exact .of_eq rfl rfl
    · exact .of_eq rfl rfl
  | drw =>
    obtain ⟨d, b, rfl⟩ := State.drawSprite_ok h
    exact .of_eq rfl rfl
  | ldF =>
    obtain ⟨-, rfl⟩ := ite_error_ok_iff.1 h
    exact .of_eq rfl rfl
  | ldVMem =>
    obtain rfl := State.loadFromIndex_ok h
    exact .of_eq rfl rfl
  | ldB | ldMemV => exact .storeAtIndex h

/-- What any cycle does to memory: neither the advance of pc, nor the fault record, nor the tick stores anything. -/
theorem step_storesChecked (h : step s = .next t) : StoresChecked s t := by
  rcases step_cases s with ⟨-, e⟩ | ⟨-, -, e⟩ | ⟨w, -, -, e⟩
  · cases e.symm.trans h
    exact .of_eq rfl rfl
  · cases e.symm.trans h
    exact .of_eq rfl rfl
  · obtain ⟨u, hu, ht⟩ := endCycle_next (e.symm.trans h)
    have hsu : StoresChecked s u := by
      rcases exec_next_cases hu with hok | ⟨r, -, rfl⟩
      · obtain ⟨hp, hmem⟩ := handler_storesChecked hok
        exact ⟨hp, hmem⟩
      · exact .of_eq rfl rfl
    rcases ht with rfl | rfl
    · exact ⟨hsu.params, hsu.mem⟩
    · exact hsu

theorem StoresChecked.wf (h : StoresChecked s t) (hs : s.mem.wf = true) : t.mem.wf = true := by
  obtain ⟨a, bs, -, e⟩ := h.mem
  rw [e]
  exact Memory.wf_writeBytes a bs hs

/-- With font protection on, no byte of the font is in the run (20_memory R78). -/
theorem StoresChecked.read_font (h : StoresChecked s t) (hf : s.params.fontWrite = .fault) {k : Nat} (hk : k < 80) :
    Memory.read t.mem (0x50 + k) = Memory.read s.mem (0x50 + k) := by
  obtain ⟨a, bs, hc, e⟩ := h.mem
  rw [e]
  refine Memory.read_writeBytes_outside ?_
  rcases checkWrite_eq_none_iff.1 hc with h0 | ⟨-, hm⟩
  · omega
  · have := hm hf
    omega

end

end Sys2Proof.Machine

end

section

/-! ## O12 and O13: the two invariants of memory -/

namespace Sys2Proof.Claims

open Sys2Proof Sys2Proof.Machine Sys2Proof.Config

/-- Settles O12: a cycle changes memory by one run of writes, and each write keeps the canonical form. -/
theorem stepKeepsMemoryCanonical : Obligations.StepKeepsMemoryCanonical :=
  fun _ _ hs h => (step_storesChecked h).wf hs

theorem FontIntact.of_storesChecked {f : Font} {s t : State} (hs : FontIntact f s) (h : StoresChecked s t) :
    FontIntact f t := by
  obtain ⟨hfw, hfont⟩ := hs
  exact ⟨by rw [h.params, hfw], fun k hk => (h.read_font hfw hk).trans (hfont k hk)⟩

/-- Settles O13: the one run of writes of a cycle passed the font check, so it misses the font. -/
theorem stepKeepsTheFont : Obligations.StepKeepsTheFont :=
  fun _ _ _ hs h => hs.of_storesChecked (step_storesChecked h)

end Sys2Proof.Claims

end

section

/-! ## O42: a dumped word is fetched next -/

namespace Sys2Proof.Machine

/-- A dump without a fault: its store completed, with pc advanced. -/
theorem exec_ldMemV_ok {s t : State} {x : Nibble} (h : exec (.ldMemV x) s = .next t) (ht : t.fault = none) :
    s.advance.storeAtIndex (s.advance.regsTo x) = .ok t := by
  rcases exec_next_cases h with hok | ⟨r, -, rfl⟩
  · exact hok
  · cases ht

/-- Settles O42: both bytes of the word are dumped registers, so both lie in memory and the fetch is in range. -/
theorem storedBytesAreFetchedNext : Obligations.StoredBytesAreFetchedNext := by
  intro s t x r q hm _ h ht hq hqx hpc
  have hst := exec_ldMemV_ok h ht
  have hhi : Memory.read t.mem t.pc.toNat = s.reg r := by
    rw [hpc]
    exact State.read_dump (s := s.advance) hm hst (by omega)
  have hlo : Memory.read t.mem (t.pc.toNat + 1) = s.reg q := by
    rw [hpc, Nat.add_assoc, ← hq]
    exact State.read_dump (s := s.advance) hm hst hqx
  have hbound : s.index.toNat + q.toNat < 4096 :=
    State.storeAtIndex_inBounds (s := s.advance) hst (by rw [length_regsTo]; omega)
  rcases t.fetch_cases with ⟨hgt, -⟩ | ⟨-, hfetch⟩
  · omega
  · exact ⟨_, hfetch, by rw [toNat_wordOfBytes, hhi, hlo]; omega⟩

end Sys2Proof.Machine

end

/-! PROOFS, family 30_encoding. The decoder family by family; then the obligations. -/

section

/-! ## O1: decoding an instruction's word -/

namespace Sys2Proof

variable {w : Word}

/-! Families 0x0, 0x8, 0xE and 0xF have a decoder of their own (30_encoding R111 to R114). -/

theorem decodeWord_of_family_0 (h : family w = 0x0) : decodeWord w = decode0 w := by
  simp [decodeWord, h]

theorem decodeWord_of_family_8 (h : family w = 0x8) : decodeWord w = decode8 w := by
  simp [decodeWord, h]

theorem decodeWord_of_family_E (h : family w = 0xE) : decodeWord w = decodeE w := by
  simp [decodeWord, h]

theorem decodeWord_of_family_F (h : family w = 0xF) : decodeWord w = decodeF w := by
  simp [decodeWord, h]

/-! The default row of a family takes exactly the low bytes that no other row claims (R111, R113, R114, R119). -/

theorem decode0_of_unclaimed (h : claimedBy0 (fieldNN w) = false) : decode0 w = .sys (fieldNNN w) := by
  unfold decode0
  split
  case h_3 => rfl
  all_goals simp_all [claimedBy0]

theorem decodeE_of_unclaimed (h : claimedByE (fieldNN w) = false) : decodeE w = .nopE (fieldX w) (fieldNN w) := by
  unfold decodeE
  split
  case h_3 => rfl
  all_goals simp_all [claimedByE]

theorem decodeF_of_unclaimed (h : claimedByF (fieldNN w) = false) : decodeF w = .nopF (fieldX w) (fieldNN w) := by
  unfold decodeF
  split
  case h_10 => rfl
  all_goals simp_all [claimedByF]

theorem decodeWord_encode (i : Instr) (h : i.wf = true) : decodeWord (encode i) = i := by
  cases i with
  | sys nnn =>
    rw [encode, decodeWord_of_family_0 (by simp), decode0_of_unclaimed (by simpa [Instr.wf] using h)]
    simp
  | nopE x ss =>
    rw [encode, decodeWord_of_family_E (by simp), decodeE_of_unclaimed (by simpa [Instr.wf] using h)]
    simp
  | nopF x ss =>
    rw [encode, decodeWord_of_family_F (by simp), decodeF_of_unclaimed (by simpa [Instr.wf] using h)]
    simp
  | cls | ret =>
    rw [encode, decodeWord_of_family_0 (by simp)]
    simp [decode0]
  | ldReg | or | and | xor | addReg | sub | shr | subn | shl | nop88 | nop89 | nop8A | nop8B | nop8C | nop8D | nop8F =>
    rw [encode, decodeWord_of_family_8 (by simp)]
    simp [decode8]
  | skp | sknp =>
    rw [encode, decodeWord_of_family_E (by simp)]
    simp [decodeE]
  | ldVDt | ldK | ldDt | ldSt | addI | ldF | ldB | ldMemV | ldVMem =>
    rw [encode, decodeWord_of_family_F (by simp)]
    simp [decodeF]
  | jp | call | seImm | sneImm | seReg | ldImm | addImm | sneReg | ldI | jpV0 | rnd | drw => simp [encode, decodeWord]

/-- Settles O1: each family's decoder finds the row by the field that `encode` wrote; a well-formed default row is
unclaimed. -/
theorem decodeOfEncodeIsTheInstruction : Obligations.DecodeOfEncodeIsTheInstruction :=
  decodeWord_encode

end Sys2Proof

end

section

/-! ## O2: every word is the word of its decoding -/

namespace Sys2Proof

/-- The term `i` stands for the word `w`: it is well-formed and encodes to `w`. -/
def StandsFor (i : Instr) (w : Word) : Prop := i.wf = true ∧ encode i = w

variable {w : Word}

theorem formA_of_family {f : Nibble} (hf : family w = f) : formA f (fieldNNN w) = w := by
  rw [← hf, formA_fields]

theorem formXNN_of_family {f : Nibble} {nn : Byte} (hf : family w = f) (hn : fieldNN w = nn) :
    formXNN f (fieldX w) nn = w := by
  rw [← hf, ← hn, formXNN_fields]

theorem formXYN_of_family {f n : Nibble} (hf : family w = f) (hn : fieldN w = n) :
    formXYN f (fieldX w) (fieldY w) n = w := by
  rw [← hf, ← hn, formXYN_fields]

/-- The low byte lies inside NNN (30_encoding R107). -/
theorem fieldNNN_lowByte (w : Word) : (fieldNNN w).extractLsb' 0 8 = fieldNN w := by
  rw [← fieldNN_formA (family w), formA_fields]

theorem decode0_standsFor (hf : family w = 0x0) : StandsFor (decode0 w) w := by
  cases hc : claimedBy0 (fieldNN w) with
  | false =>
    rw [decode0_of_unclaimed hc]
    exact ⟨by simp [Instr.wf, fieldNNN_lowByte, hc], formA_of_family hf⟩
  | true =>
    simp only [claimedBy0, decide_eq_true_eq] at hc
    rcases hc with hn | hn <;>
      · simp only [decode0, hn]
        exact ⟨rfl, formXNN_of_family hf hn⟩

theorem decode8_standsFor (hf : family w = 0x8) : StandsFor (decode8 w) w := by
  unfold decode8
  dsimp only
  split
  case h_16 =>
    have hn : fieldN w = 0xF := by
      simp only [imp_false] at *
      bv_omega
    exact ⟨rfl, formXYN_of_family hf hn⟩
  all_goals exact ⟨rfl, formXYN_of_family hf ‹_›⟩

theorem decodeE_standsFor (hf : family w = 0xE) : StandsFor (decodeE w) w := by
  cases hc : claimedByE (fieldNN w) with
  | false =>
    rw [decodeE_of_unclaimed hc]
    exact ⟨by simp [Instr.wf, hc], formXNN_of_family hf rfl⟩
  | true =>
    simp only [claimedByE, decide_eq_true_eq] at hc
    rcases hc with hn | hn <;>
      · simp only [decodeE, hn]
        exact ⟨rfl, formXNN_of_family hf hn⟩

theorem decodeF_standsFor (hf : family w = 0xF) : StandsFor (decodeF w) w := by
  cases hc : claimedByF (fieldNN w) with
  | false =>
    rw [decodeF_of_unclaimed hc]
    exact ⟨by simp [Instr.wf, hc], formXNN_of_family hf rfl⟩
  | true =>
    simp only [claimedByF, decide_eq_true_eq] at hc
    rcases hc with hn | hn | hn | hn | hn | hn | hn | hn | hn <;>
      · simp only [decodeF, hn]
        exact ⟨rfl, formXNN_of_family hf hn⟩

theorem decodeWord_standsFor (w : Word) : StandsFor (decodeWord w) w := by
  unfold decodeWord
  split
  case h_1 hf => exact decode0_standsFor hf
  case h_9 hf => exact decode8_standsFor hf
  case h_15 hf => exact decodeE_standsFor hf
  case h_16 =>
    have hf : family w = 0xF := by
      simp only [imp_false] at *
      bv_omega
    exact decodeF_standsFor hf
  case h_2 hf | h_3 hf | h_11 hf | h_12 hf => exact ⟨rfl, formA_of_family hf⟩
  case h_4 hf | h_5 hf | h_7 hf | h_8 hf | h_13 hf => exact ⟨rfl, formXNN_of_family hf rfl⟩
  case h_6 hf | h_10 hf | h_14 hf => exact ⟨rfl, formXYN_of_family hf rfl⟩

/-- Settles O2: the decoder keeps every field of the word that its layout has. -/
theorem everyWordDecodesAndReencodes : Obligations.EveryWordDecodesAndReencodes :=
  decodeWord_standsFor

end Sys2Proof

end

section

/-! ## O3: the most specific row -/

namespace Sys2Proof.Laws

variable {w : Word}

/-- The lemmas of `FitsRow` together. -/
theorem fitsRow : ∀ i : Instr, FitsRow.Statement i
  | .cls n => FitsRow.cls n | .ret n => FitsRow.ret n | .sys nnn => FitsRow.sys nnn | .jp nnn => FitsRow.jp nnn
  | .call nnn => FitsRow.call nnn | .seImm x nn => FitsRow.seImm x nn | .sneImm x nn => FitsRow.sneImm x nn
  | .seReg x y n => FitsRow.seReg x y n | .ldImm x nn => FitsRow.ldImm x nn | .addImm x nn => FitsRow.addImm x nn
  | .ldReg x y => FitsRow.ldReg x y | .or x y => FitsRow.or x y | .and x y => FitsRow.and x y
  | .xor x y => FitsRow.xor x y | .addReg x y => FitsRow.addReg x y | .sub x y => FitsRow.sub x y
  | .shr x y => FitsRow.shr x y | .subn x y => FitsRow.subn x y | .shl x y => FitsRow.shl x y
  | .sneReg x y n => FitsRow.sneReg x y n | .ldI nnn => FitsRow.ldI nnn | .jpV0 nnn => FitsRow.jpV0 nnn
  | .rnd x nn => FitsRow.rnd x nn | .drw x y n => FitsRow.drw x y n | .skp x => FitsRow.skp x
  | .sknp x => FitsRow.sknp x | .ldVDt x => FitsRow.ldVDt x | .ldK x => FitsRow.ldK x | .ldDt x => FitsRow.ldDt x
  | .ldSt x => FitsRow.ldSt x | .addI x => FitsRow.addI x | .ldF x => FitsRow.ldF x | .ldB x => FitsRow.ldB x
  | .ldMemV x => FitsRow.ldMemV x | .ldVMem x => FitsRow.ldVMem x | .nop88 x y => FitsRow.nop88 x y
  | .nop89 x y => FitsRow.nop89 x y | .nop8A x y => FitsRow.nop8A x y | .nop8B x y => FitsRow.nop8B x y
  | .nop8C x y => FitsRow.nop8C x y | .nop8D x y => FitsRow.nop8D x y | .nop8F x y => FitsRow.nop8F x y
  | .nopE x ss => FitsRow.nopE x ss | .nopF x ss => FitsRow.nopF x ss

theorem fits_iff {r : TableRow} : r.fits w = true ↔ w &&& r.mask = r.pattern := by
  simp [TableRow.fits]

/-- A word decides the pattern of a row it fits once the mask is known. -/
theorem eq_of_fits_of_mask_eq {r r' : TableRow} (h : r.fits w = true) (h' : r'.fits w = true)
    (hm : r.mask = r'.mask) : r = r' := by
  have hp : r.pattern = r'.pattern := by rw [← fits_iff.1 h, ← fits_iff.1 h', hm]
  cases r
  cases r'
  simp_all

theorem tableRow_decodeWord_fits (w : Word) : (tableRow (decodeWord w)).fits w = true := by
  have h := fitsRow (decodeWord w)
  rwa [FitsRow.Statement, (decodeWord_standsFor w).2] at h

/-! The fields of a literal word, to read a row's pattern. -/

theorem fieldNN_ofNat (k : Nat) : fieldNN (BitVec.ofNat 16 k) = BitVec.ofNat 8 k :=
  BitVec.eq_of_toNat_eq (by rw [toNat_fieldNN, BitVec.toNat_ofNat, BitVec.toNat_ofNat]; omega)

theorem fieldN_ofNat (k : Nat) : fieldN (BitVec.ofNat 16 k) = BitVec.ofNat 4 k :=
  BitVec.eq_of_toNat_eq (by rw [toNat_fieldN, BitVec.toNat_ofNat, BitVec.toNat_ofNat]; omega)

theorem fields_of_and_F0FF {p : Word} (h : w &&& 0xF0FF = p) : family w = family p ∧ fieldNN w = fieldNN p := by
  rw [← h, and_F0FF]
  simp

theorem fields_of_and_F00F {p : Word} (h : w &&& 0xF00F = p) : family w = family p ∧ fieldN w = fieldN p := by
  rw [← h, and_F00F]
  simp

/-- Every row tests the family (R116). -/
theorem mask_and_F000 (i : Instr) : (tableRow i).mask &&& 0xF000 = 0xF000 := by
  cases i <;> simp only [tableRow] <;> decide

/-- A row that tests more than the family is the row of every word that fits it. -/
theorem tableRow_decodeWord_of_fits {i : Instr} (h : (tableRow i).fits w = true) :
    (tableRow i).mask = 0xF000 ∨ tableRow (decodeWord w) = tableRow i := by
  cases i with
  | cls | ret =>
    simp only [fits_iff, tableRow] at h
    obtain ⟨hf, hn⟩ := fields_of_and_F0FF h
    right
    rw [decodeWord_of_family_0 (hf.trans (by decide))]
    simp [decode0, hn, fieldNN_ofNat, tableRow]
  | skp | sknp =>
    simp only [fits_iff, tableRow] at h
    obtain ⟨hf, hn⟩ := fields_of_and_F0FF h
    right
    rw [decodeWord_of_family_E (hf.trans (by decide))]
    simp [decodeE, hn, fieldNN_ofNat, tableRow]
  | ldVDt | ldK | ldDt | ldSt | addI | ldF | ldB | ldMemV | ldVMem =>
    simp only [fits_iff, tableRow] at h
    obtain ⟨hf, hn⟩ := fields_of_and_F0FF h
    right
    rw [decodeWord_of_family_F (hf.trans (by decide))]
    simp [decodeF, hn, fieldNN_ofNat, tableRow]
  | ldReg | or | and | xor | addReg | sub | shr | subn | shl | nop88 | nop89 | nop8A | nop8B | nop8C | nop8D | nop8F =>
    simp only [fits_iff, tableRow] at h
    obtain ⟨hf, hn⟩ := fields_of_and_F00F h
    right
    rw [decodeWord_of_family_8 (hf.trans (by decide))]
    simp [decode8, hn, fieldN_ofNat, tableRow]
  | sys | jp | call | seImm | sneImm | seReg | ldImm | addImm | sneReg | ldI | jpV0 | rnd | drw | nopE | nopF =>
    exact .inl rfl

/-- Settles O3: a word fits its decoding's row because it is that instruction's word; a row beside it is either the same
or tests the family alone, which every row tests. -/
theorem decoderPicksTheMostSpecificTableRow : Obligations.DecoderPicksTheMostSpecificTableRow := by
  intro w i hi
  have hd := tableRow_decodeWord_fits w
  refine ⟨hd, ?_, eq_of_fits_of_mask_eq hd hi⟩
  rcases tableRow_decodeWord_of_fits hi with hm | hr
  · rw [hm, mask_and_F000]
  · rw [hr, BitVec.and_self]

end Sys2Proof.Laws

end

section

/-! ## O5 and O7: what a cycle answers -/

namespace Sys2Proof.Machine

/-- No instruction ends in the outcomes fault or refused: a fault of its rule is a next state (60_exceptions R334). -/
theorem exec_answers_next (i : Instr) (s : State) : ∃ t, exec i s = .next t := by
  rw [exec_eq_execute]
  rcases execute_cases i s (handler i) with ⟨t, -, e⟩ | ⟨r, -, e⟩
  · exact ⟨t, e⟩
  · exact ⟨_, e⟩

/-- A cycle that fetches a word runs its instruction, then the tick if that completed (30_encoding R103 to R105). -/
theorem step_of_fetch {s : State} {w : Word} (hf : s.fault = none) (hw : s.fetch = some w) :
    ∃ t, exec (decodeWord w) s = .next t ∧ step s = .next (if t.fault = none then t.tick else t) := by
  obtain ⟨t, ht⟩ := exec_answers_next (decodeWord w) s
  refine ⟨t, ht, ?_⟩
  by_cases hc : t.fault = none
  · rw [if_pos hc, step_completes hf hw ht hc]
  · rw [if_neg hc, step_faults hf hw ht hc]

theorem fetch_of_pc_le {s : State} (h : s.pc.toNat ≤ 0xFFE) :
    s.fetch = some (wordOfBytes (Memory.read s.mem s.pc.toNat) (Memory.read s.mem (s.pc.toNat + 1))) := by
  rcases s.fetch_cases with ⟨hgt, -⟩ | ⟨-, e⟩
  · omega
  · exact e

theorem fetch_of_pc_gt {s : State} (h : s.pc.toNat > 0xFFE) : s.fetch = none := by
  rcases s.fetch_cases with ⟨-, e⟩ | ⟨hle, -⟩
  · exact e
  · omega

/-- Settles O7: nothing, the fetch fault or an instruction's answer, each a next state. -/
theorem everyCycleAnswersANextState : Obligations.EveryCycleAnswersANextState := by
  intro s
  rcases step_cases s with ⟨-, e⟩ | ⟨-, -, e⟩ | ⟨w, hf, hw, -⟩
  · exact ⟨s, e⟩
  · exact ⟨_, e⟩
  · obtain ⟨t, -, e⟩ := step_of_fetch hf hw
    exact ⟨_, e⟩

/-- Settles O5: the two bytes at pc are the fetched word. -/
theorem stepRunsTheDecodedInstruction : Obligations.StepRunsTheDecodedInstruction := by
  intro s i hf hpc _ hd
  have hi : decodeWord (wordOfBytes (Memory.read s.mem s.pc.toNat) (Memory.read s.mem (s.pc.toNat + 1))) = i := by
    cases hd
    rfl
  rw [← hi]
  exact step_of_fetch hf (fetch_of_pc_le hpc)

/-- Settles O6: a fetch in range is the two bytes at pc as a number; out of range the cycle records the fetch fault. -/
theorem fetchIsBigEndianAndBounded : Obligations.FetchIsBigEndianAndBounded := by
  intro s
  constructor
  · intro hpc
    exact ⟨_, fetch_of_pc_le hpc, by rw [toNat_wordOfBytes, Nat.mul_comm]⟩
  · intro hpc hf
    rcases step_cases s with ⟨hne, -⟩ | ⟨-, -, e⟩ | ⟨w, -, hw, -⟩
    · exact absurd hf hne
    · exact e
    · cases (fetch_of_pc_gt hpc).symm.trans hw

end Sys2Proof.Machine

end

section

/-! ## O4: sample words -/

namespace Sys2Proof

/-- Settles O4: the decoder computes on literal words. -/
theorem sampleWordsDecode : Obligations.SampleWordsDecode := by
  unfold Obligations.SampleWordsDecode
  decide

end Sys2Proof

end

/-! PROOFS, family 40_control_flow. What an instruction answers, from its handler; then the obligations. -/

section

/-! ## Completing and faulting instructions -/

namespace Sys2Proof.Claims

open Sys2Proof Sys2Proof.Machine

/-- The word of a well-formed instruction is its word both ways. -/
theorem Encodes.of_encode {i : Instr} {w : Word} (hi : i.wf = true) (hw : encode i = w) : Encodes w i :=
  ⟨by rw [← hw, decodeWord_encode i hi], hw⟩

section
variable {i : Instr} {s t : State}

/-- An instruction whose handler completes answers its state, with only the parts of its own list changed. -/
theorem exec_of_handler_ok (h : handler i s.advance = .ok t) : exec i s = .next t ∧ KeepsAllBut (mayChange i) s t := by
  have he : exec i s = .next t := by rw [exec_eq_execute, execute_ok h]
  exact ⟨he, (eachInstructionChangesOnlyItsOwnParts i s t he).1⟩

/-- An instruction whose handler faults commits the record alone (60_exceptions R334). -/
theorem exec_of_handler_error {r : Raised} (h : handler i s.advance = .error r) :
    exec i s = .next (Recorded s i r.cause r.info) := by
  rw [exec_eq_execute, execute_error h]
  rfl

end

end Sys2Proof.Claims

end

section

/-! ## O23: CLS -/

namespace Sys2Proof.Claims

open Sys2Proof Sys2Proof.Machine

/-- Settles O23: the screen becomes the blank frame, and the screen is all that CLS may change. -/
theorem clearDisplayUnlightsEveryPixel : Obligations.ClearDisplayUnlightsEveryPixel := by
  intro s n
  obtain ⟨he, hk⟩ := exec_of_handler_ok (i := .cls n) (s := s) rfl
  exact ⟨.of_encode rfl rfl, _, he, rfl, Frame.lit_blank, hk⟩

end Sys2Proof.Claims

end

section

/-! ## O24, O27 and O53: the call stack -/

namespace Sys2Proof.Machine

variable {s t : State} {a : Word}

theorem State.push_of_full (h : s.sp.val = 16) : s.push a = .error ⟨.stackOverflow, 16⟩ := by
  rcases s.push_cases a with ⟨-, e⟩ | ⟨hs, -⟩
  · exact e
  · omega

theorem State.exists_push_ok (h : s.sp.val ≠ 16) : ∃ t, s.push a = .ok t := by
  rcases s.push_cases a with ⟨hs, -⟩ | ⟨_, e⟩
  · exact absurd hs h
  · exact ⟨_, e⟩

theorem State.popPc_of_empty (h : s.sp.val = 0) : s.popPc = .error ⟨.stackUnderflow, 0⟩ := by
  rcases s.popPc_cases with ⟨-, e⟩ | ⟨hs, -⟩
  · exact e
  · exact absurd h hs

theorem State.exists_popPc_ok (h : s.sp.val ≠ 0) : ∃ t, s.popPc = .ok t := by
  rcases s.popPc_cases with ⟨hs, -⟩ | ⟨-, e⟩
  · exact absurd hs h
  · exact ⟨_, e⟩

/-! What a completed push or pop leaves on the stack (10_state R37). -/

theorem State.push_sp (h : s.push a = .ok t) : t.sp.val = s.sp.val + 1 := by
  obtain ⟨_, rfl⟩ := State.push_ok h
  rfl

theorem State.push_getElem?_sp (h : s.push a = .ok t) : t.stack[s.sp.val]? = some a := by
  obtain ⟨hs, rfl⟩ := State.push_ok h
  exact Vector.getElem?_set_self hs

theorem State.push_getElem?_other (h : s.push a = .ok t) {k : Nat} (hk : k ≠ s.sp.val) :
    t.stack[k]? = s.stack[k]? := by
  obtain ⟨hs, rfl⟩ := State.push_ok h
  exact Vector.getElem?_set_ne hs hk.symm

theorem State.popPc_getElem?_pred_sp (h : s.popPc = .ok t) : s.stack[s.sp.val - 1]? = some t.pc := by
  obtain ⟨_, rfl⟩ := State.popPc_ok h
  exact Vector.getElem?_eq_getElem _

theorem State.popPc_sp (h : s.popPc = .ok t) : t.sp.val = s.sp.val - 1 := by
  obtain ⟨_, rfl⟩ := State.popPc_ok h
  rfl

theorem State.popPc_stack (h : s.popPc = .ok t) : t.stack = s.stack := by
  obtain ⟨_, rfl⟩ := State.popPc_ok h
  rfl

/-! CALL's handler is the push of pc, followed by the jump when that completes (40_control_flow R145). -/

theorem handler_call_of_push_ok {nnn : Addr} (h : s.push s.pc = .ok t) :
    handler (.call nnn) s = .ok (t.setPc (zextAddr nnn)) := by
  simp only [handler, h]

theorem handler_call_of_push_error {nnn : Addr} {r : Raised} (h : s.push s.pc = .error r) :
    handler (.call nnn) s = .error r := by
  simp only [handler, h]

@[simp] theorem toNat_zextAddr (nnn : Addr) : (zextAddr nnn).toNat = nnn.toNat := by
  rw [zextAddr]; bv_omega

end Sys2Proof.Machine

namespace Sys2Proof.Claims

open Sys2Proof Sys2Proof.Machine

/-- Settles O24: RET is the pop with pc advanced, which the pop then replaces. -/
theorem returnPopsIntoPc : Obligations.ReturnPopsIntoPc := by
  intro s n
  refine ⟨.of_encode rfl rfl, fun h => ?_, fun h => ?_⟩
  · exact exec_of_handler_error (i := .ret n) (State.popPc_of_empty (s := s.advance) h)
  · obtain ⟨t, ht⟩ := State.exists_popPc_ok (s := s.advance) h
    have hc : ChangesOnly [.stack] (fun _ => False) s t := ChangesOnly.advance.trans (.popPc (.head _) ht)
    exact ⟨t, (exec_of_handler_ok (i := .ret n) ht).1, State.popPc_getElem?_pred_sp ht, State.popPc_sp ht,
      State.popPc_stack ht, hc.keeps⟩

/-- Settles O27: the pushed address is pc already advanced. -/
theorem callPushesTheNextAddress : Obligations.CallPushesTheNextAddress := by
  intro s nnn
  refine ⟨.of_encode rfl rfl, fun h => ?_, fun h => ?_⟩
  · exact exec_of_handler_error (handler_call_of_push_error (State.push_of_full (s := s.advance) h))
  · obtain ⟨u, hu⟩ := State.exists_push_ok (s := s.advance) (a := s.advance.pc) h
    have hc : ChangesOnly [.stack] (fun _ => False) s (u.setPc (zextAddr nnn)) :=
      ChangesOnly.advance.trans ((ChangesOnly.push (.head _) hu).trans (.setPc _))
    have hsp : u.sp.val = s.sp.val + 1 := State.push_sp (s := s.advance) hu
    have htop : u.stack[s.sp.val]? = some (s.pc + 2) := State.push_getElem?_sp (s := s.advance) hu
    exact ⟨_, (exec_of_handler_ok (handler_call_of_push_ok hu)).1, toNat_zextAddr nnn, hsp, htop,
      fun _ hk => State.push_getElem?_other (s := s.advance) hu hk, hc.keeps⟩

/-- Settles O53: a CALL that did not fault left `s.pc + 2` below its sp (O27), and that entry is what RET pops (O24). -/
theorem callThenReturnComesBack : Obligations.CallThenReturnComesBack := by
  intro s t t' u nnn n _ hcall ht hstack hsp hf' hret
  obtain ⟨-, hover, hpush⟩ := callPushesTheNextAddress s nnn
  obtain ⟨-, -, hpop⟩ := returnPopsIntoPc t' n
  have hroom : s.sp.val ≠ 16 := by
    intro h
    cases hcall.symm.trans (hover h)
    cases ht
  obtain ⟨t₁, e₁, -, hsp₁, htop, -, -⟩ := hpush hroom
  cases hcall.symm.trans e₁
  have hsp' : t'.sp.val = s.sp.val + 1 := by rw [hsp, hsp₁]
  obtain ⟨u₁, e₂, hpc, hsp₂, -, hk⟩ := hpop (by omega)
  cases hret.symm.trans e₂
  have hfault : u.fault = t'.fault := hk .fault (by decide)
  refine ⟨?_, Fin.ext (by omega), hfault.trans hf'⟩
  rw [hsp', Nat.add_sub_cancel, hstack, htop] at hpc
  exact (Option.some.inj hpc).symm

end Sys2Proof.Claims

end

section

/-! ## O25: the no-ops -/

namespace Sys2Proof.Claims

open Sys2Proof Sys2Proof.Machine

/-- An instruction whose handler does nothing: what O25 says of each of its rows. -/
theorem noOp_onlyAdvancesPc {i : Instr} {w : Word} {s : State} (h : handler i s.advance = .ok s.advance)
    (hw : encode i = w) :
    (i.wf = true → Encodes w i) ∧
      ∃ t, exec i s = .next t ∧ t.pc = s.pc + 2 ∧ KeepsAllBut [] s t ∧
        (i.wf = true → s.fault = none → s.fetch = some w → step s = .next t.tick) := by
  obtain ⟨he, -⟩ := exec_of_handler_ok h
  have hc : ChangesOnly [] (fun _ => False) s s.advance := .advance
  refine ⟨fun hi => .of_encode hi hw, s.advance, he, rfl, hc.keeps, fun hi hf hfetch => ?_⟩
  obtain ⟨hd, -⟩ := Encodes.of_encode hi hw
  exact step_completes hf hfetch (hd.symm ▸ he) hf

/-- Settles O25: the handler of every row listed does nothing. -/
theorem noOpsOnlyAdvancePc : Obligations.NoOpsOnlyAdvancePc := by
  intro s nnn x y ss p hp
  simp only [List.mem_cons, List.not_mem_nil, or_false] at hp
  rcases hp with rfl | rfl | rfl | rfl | rfl | rfl | rfl | rfl | rfl | rfl <;>
    exact noOp_onlyAdvancesPc rfl rfl

end Sys2Proof.Claims

end

section

/-! ## O26: the jumps -/

namespace Sys2Proof.Claims

open Sys2Proof Sys2Proof.Machine

/-- 0xFFF + 0xFF is below 65536: the sum in 16 bits is exact (40_control_flow R146). -/
theorem toNat_zextAddr_add_zextByte (nnn : Addr) (b : Byte) :
    (zextAddr nnn + zextByte b).toNat = nnn.toNat + b.toNat := by
  rw [zextAddr, zextByte]; bv_omega

/-- Settles O26: each handler sets pc and nothing else. -/
theorem jumpsSetPc : Obligations.JumpsSetPc := by
  intro s nnn
  obtain ⟨hjp, hkjp⟩ := exec_of_handler_ok (i := .jp nnn) (s := s) rfl
  obtain ⟨hjpV0, hkjpV0⟩ := exec_of_handler_ok (i := .jpV0 nnn) (s := s) rfl
  exact ⟨.of_encode rfl rfl, .of_encode rfl rfl, ⟨_, hjp, toNat_zextAddr nnn, hkjp⟩,
    ⟨_, hjpV0, toNat_zextAddr_add_zextByte nnn (s.reg 0), hkjpV0⟩⟩

end Sys2Proof.Claims

end

section

/-! ## O28: the skips -/

namespace Sys2Proof.Machine

/-- The advance of every instruction, then the skip's own (30_encoding R102, 40_control_flow R151). -/
theorem State.advance_skipIf_pc (s : State) (c : Bool) :
    (s.advance.skipIf c).pc = if c = true then s.pc + 4 else s.pc + 2 := by
  rw [State.skipIf_pc, State.advance_pc, BitVec.add_assoc]
  rfl

end Sys2Proof.Machine

namespace Sys2Proof.Claims

open Sys2Proof Sys2Proof.Machine

/-- An instruction whose handler skips on `c`, for a condition `d` that says the same. -/
theorem skip_addsTwoIf {i : Instr} {s : State} {c d : Prop} [Decidable c] [Decidable d]
    (h : handler i s.advance = .ok (s.advance.skipIf c)) (hcd : c ↔ d) :
    ∃ t, exec i s = .next t ∧ t.pc = (if decide d = true then s.pc + 4 else s.pc + 2) ∧ KeepsAllBut [] s t := by
  have hc : ChangesOnly [] (fun _ => False) s (s.advance.skipIf c) := ChangesOnly.advance.trans (.skipIf _)
  obtain ⟨he, -⟩ := exec_of_handler_ok h
  exact ⟨_, he, by rw [State.advance_skipIf_pc, decide_eq_decide.2 hcd], hc.keeps⟩

/-- Settles O28: each handler is a skip, and bytes are equal exactly when their numbers are. -/
theorem skipsAddTwoWhenTheConditionHolds : Obligations.SkipsAddTwoWhenTheConditionHolds := by
  intro s x y n nn
  refine ⟨⟨.of_encode rfl rfl, .of_encode rfl rfl, .of_encode rfl rfl, .of_encode rfl rfl⟩, fun p hp => ?_⟩
  simp only [List.mem_cons, List.not_mem_nil, or_false] at hp
  rcases hp with rfl | rfl | rfl | rfl
  · exact skip_addsTwoIf rfl BitVec.toNat_inj.symm
  · exact skip_addsTwoIf rfl (not_congr BitVec.toNat_inj.symm)
  · exact skip_addsTwoIf rfl BitVec.toNat_inj.symm
  · exact skip_addsTwoIf rfl (not_congr BitVec.toNat_inj.symm)

end Sys2Proof.Claims

end

/-! PROOFS, family 41_register_alu. What an instruction that writes one register, or VF and one register, answers; then the
obligations. -/

section

/-! ## Instructions that write one register, or VF and one register -/

namespace Sys2Proof.Claims

open Sys2Proof Sys2Proof.Machine

variable {i : Instr} {s : State} {x : Nibble} {b f : Byte}

/-- An instruction whose handler writes `b` to the register `x`: what it answers. -/
theorem exec_of_handler_setReg (h : handler i s.advance = .ok (s.advance.setReg x b)) :
    ∃ t, exec i s = .next t ∧ t.pc = s.pc + 2 ∧ t.reg x = b ∧ (∀ r, r ≠ x → t.reg r = s.reg r) ∧
      KeepsAllBut (mayChange i) s t := by
  obtain ⟨he, hk⟩ := exec_of_handler_ok h
  refine ⟨_, he, rfl, ?_, fun r hr => ?_, hk⟩
  · rw [State.setReg_reg, if_pos rfl]
  · rw [State.setReg_reg, if_neg hr, State.advance_reg]

/-- An instruction whose handler writes `f` to VF and then `b` to the register `x`: what it answers. With X = 15 the later
write stands (41_register_alu R182). -/
theorem exec_of_handler_setFlagThenReg (h : handler i s.advance = .ok (s.advance.setFlagThenReg x f b)) :
    ∃ t, exec i s = .next t ∧ t.pc = s.pc + 2 ∧ t.reg x = b ∧ (x ≠ 15 → t.reg 15 = f) ∧
      (∀ r, r ≠ x → r ≠ 15 → t.reg r = s.reg r) ∧ KeepsAllBut (mayChange i) s t := by
  obtain ⟨he, hk⟩ := exec_of_handler_ok h
  refine ⟨_, he, rfl, ?_, fun hx => ?_, fun r hr hf => ?_, hk⟩
  · rw [State.setFlagThenReg_reg, if_pos rfl]
  · rw [State.setFlagThenReg_reg, if_neg hx.symm, if_pos rfl]
  · rw [State.setFlagThenReg_reg, if_neg hr, if_neg hf, State.advance_reg]

end Sys2Proof.Claims

end

section

/-! ## The flags as numbers -/

namespace Sys2Proof.Machine

theorem flagByte_decide (c : Prop) [Decidable c] : flagByte (decide c) = if c then 1 else 0 := by
  simp only [flagByte, decide_eq_true_eq]

@[simp] theorem toNat_flagByte (c : Bool) : (flagByte c).toNat = c.toNat := by
  cases c <;> rfl

theorem carryFlag_eq (a b : Byte) : carryFlag a b = if a.toNat + b.toNat > 255 then 1 else 0 := flagByte_decide _

theorem noBorrowFlag_eq (a b : Byte) : noBorrowFlag a b = if a.toNat > b.toNat then 1 else 0 := flagByte_decide _

theorem toNat_shiftedOutRight (a : Byte) : (shiftedOutRight a).toNat = a.toNat % 2 := by
  rw [shiftedOutRight, toNat_flagByte, BitVec.getLsbD, Nat.toNat_testBit, Nat.pow_zero, Nat.div_one]

/-- Bit 7 is the highest, so nothing is left above it (41_register_alu R193). -/
theorem toNat_shiftedOutLeft (a : Byte) : (shiftedOutLeft a).toNat = a.toNat / 128 := by
  rw [shiftedOutLeft, toNat_flagByte, BitVec.getLsbD, Nat.toNat_testBit]
  have := a.isLt
  omega

end Sys2Proof.Machine

end

section

/-! ## O29, O30 and O31: loads, the sum with an immediate and the bitwise operations -/

namespace Sys2Proof.Claims

open Sys2Proof Sys2Proof.Machine

/-- Settles O29: each handler writes its operand to Vx. -/
theorem loadsSetOneRegister : Obligations.LoadsSetOneRegister := by
  intro s x y nn
  refine ⟨⟨.of_encode rfl rfl, .of_encode rfl rfl⟩, fun p hp => ?_⟩
  simp only [List.mem_cons, List.not_mem_nil, or_false] at hp
  rcases hp with rfl | rfl
  · exact exec_of_handler_setReg rfl
  · exact exec_of_handler_setReg rfl

/-- Settles O30: the handler writes the sum of two bytes to Vx, and that sum wraps at 256. -/
theorem addImmediateWrapsWithoutFlag : Obligations.AddImmediateWrapsWithoutFlag := by
  intro s x nn
  obtain ⟨t, he, hpc, hx, hr, hk⟩ := exec_of_handler_setReg (i := .addImm x nn) (s := s) rfl
  exact ⟨.of_encode rfl rfl, t, he, hpc, by rw [hx, BitVec.toNat_add, State.advance_reg], hr, hk⟩

/-- An instruction whose handler writes to Vx a byte given bit by bit. -/
theorem exec_of_handler_setReg_bits {i : Instr} {s : State} {x : Nibble} {b : Byte} {c : Nat → Bool}
    (h : handler i s.advance = .ok (s.advance.setReg x b)) (hb : ∀ k, b.getLsbD k = c k) :
    ∃ t, exec i s = .next t ∧ t.pc = s.pc + 2 ∧ (∀ k, k < 8 → (t.reg x).getLsbD k = c k) ∧
      (∀ r, r ≠ x → t.reg r = s.reg r) ∧ KeepsAllBut (mayChange i) s t := by
  obtain ⟨t, he, hpc, hx, hr, hk⟩ := exec_of_handler_setReg h
  exact ⟨t, he, hpc, fun k _ => by rw [hx, hb], hr, hk⟩

/-- Settles O31: each handler writes to Vx alone, and the operation on bytes is the operation on each bit. -/
theorem bitwiseOperationsKeepTheFlag : Obligations.BitwiseOperationsKeepTheFlag := by
  intro s x y
  refine ⟨⟨.of_encode rfl rfl, .of_encode rfl rfl, .of_encode rfl rfl⟩, fun p hp => ?_⟩
  simp only [List.mem_cons, List.not_mem_nil, or_false] at hp
  rcases hp with rfl | rfl | rfl
  · exact exec_of_handler_setReg_bits rfl fun _ => BitVec.getLsbD_or
  · exact exec_of_handler_setReg_bits rfl fun _ => BitVec.getLsbD_and
  · exact exec_of_handler_setReg_bits rfl fun _ => BitVec.getLsbD_xor

end Sys2Proof.Claims

end

section

/-! ## O32, O33 and O34: the sum, the differences and the shifts, with a flag -/

namespace Sys2Proof.Claims

open Sys2Proof Sys2Proof.Machine

/-- Settles O32: the handler writes the carry to VF and then the sum, which wraps at 256, to Vx. -/
theorem addSetsTheCarry : Obligations.AddSetsTheCarry := by
  intro s x y
  obtain ⟨t, he, hpc, hx, hf, hr, hk⟩ := exec_of_handler_setFlagThenReg (i := .addReg x y) (s := s) rfl
  exact ⟨.of_encode rfl rfl, t, he, hpc, by rw [hx, BitVec.toNat_add, State.advance_reg, State.advance_reg],
    fun h => by rw [hf h, carryFlag_eq, State.advance_reg, State.advance_reg], hr, hk⟩

/-- The difference modulo 256: a borrow adds 256 once (41_register_alu R190). -/
theorem toNat_sub_eq_ite (a b : Byte) :
    (a - b).toNat = if a.toNat < b.toNat then a.toNat + 256 - b.toNat else a.toNat - b.toNat := by
  split <;> bv_omega

/-- An instruction whose handler subtracts `b` from `a` into Vx, VF first: what O33 says of SUB and of SUBN. -/
theorem exec_of_handler_sub {i : Instr} {s : State} {x : Nibble} {a b : Byte}
    (h : handler i s.advance = .ok (s.advance.setFlagThenReg x (noBorrowFlag a b) (a - b))) :
    ∃ t, exec i s = .next t ∧ t.pc = s.pc + 2 ∧
      (t.reg x).toNat = (if a.toNat < b.toNat then a.toNat + 256 - b.toNat else a.toNat - b.toNat) ∧
      (x ≠ 15 → t.reg 15 = if a.toNat > b.toNat then 1 else 0) ∧
      (∀ r, r ≠ x → r ≠ 15 → t.reg r = s.reg r) ∧ KeepsAllBut (mayChange i) s t := by
  obtain ⟨t, he, hpc, hx, hf, hr, hk⟩ := exec_of_handler_setFlagThenReg h
  exact ⟨t, he, hpc, by rw [hx, toNat_sub_eq_ite], fun hne => by rw [hf hne, noBorrowFlag_eq], hr, hk⟩

/-- Settles O33: SUBN is SUB with the operands swapped. -/
theorem subtractsSetNoBorrow : Obligations.SubtractsSetNoBorrow := by
  intro s x y
  refine ⟨⟨.of_encode rfl rfl, .of_encode rfl rfl⟩, fun p hp => ?_⟩
  simp only [List.mem_cons, List.not_mem_nil, or_false] at hp
  rcases hp with rfl | rfl
  · exact exec_of_handler_sub (a := s.reg x) (b := s.reg y) rfl
  · exact exec_of_handler_sub (a := s.reg y) (b := s.reg x) rfl

/-- An instruction whose handler writes a flag and a result known as numbers. -/
theorem exec_of_handler_setFlagThenReg_toNat {i : Instr} {s : State} {x : Nibble} {b f : Byte} {m n : Nat}
    (h : handler i s.advance = .ok (s.advance.setFlagThenReg x f b)) (hb : b.toNat = m) (hf : f.toNat = n) :
    ∃ t, exec i s = .next t ∧ t.pc = s.pc + 2 ∧ (t.reg x).toNat = m ∧ (x ≠ 15 → (t.reg 15).toNat = n) ∧
      (∀ r, r ≠ x → r ≠ 15 → t.reg r = s.reg r) ∧ KeepsAllBut (mayChange i) s t := by
  obtain ⟨t, he, hpc, hx, hv, hr, hk⟩ := exec_of_handler_setFlagThenReg h
  exact ⟨t, he, hpc, by rw [hx, hb], fun hne => by rw [hv hne, hf], hr, hk⟩

theorem toNat_ushiftRight_one (a : Byte) : (a >>> 1).toNat = a.toNat / 2 := by
  bv_omega

theorem toNat_shiftLeft_one (a : Byte) : (a <<< 1).toNat = a.toNat * 2 % 256 := by
  bv_omega

/-- Settles O34: the shifts halve and double the byte, and the bit shifted out is its lowest or its highest. -/
theorem shiftsSetTheBitShiftedOut : Obligations.ShiftsSetTheBitShiftedOut := by
  intro s x y
  refine ⟨⟨.of_encode rfl rfl, .of_encode rfl rfl⟩, fun p hp => ?_⟩
  simp only [List.mem_cons, List.not_mem_nil, or_false] at hp
  rcases hp with rfl | rfl
  · exact exec_of_handler_setFlagThenReg_toNat rfl (toNat_ushiftRight_one _) (toNat_shiftedOutRight _)
  · exact exec_of_handler_setFlagThenReg_toNat rfl (toNat_shiftLeft_one _) (toNat_shiftedOutLeft _)

end Sys2Proof.Claims

end

section

/-! ## O35: the random byte -/

namespace Sys2Proof.Claims

open Sys2Proof Sys2Proof.Machine

/-- Settles O35: the handler moves the source on by one draw, then writes the masked byte to Vx. -/
theorem randomByteIsMaskedAndFresh : Obligations.RandomByteIsMaskedAndFresh := by
  intro s x nn
  obtain ⟨he, hk⟩ := exec_of_handler_ok (i := .rnd x nn) (s := s) rfl
  refine ⟨.of_encode rfl rfl, _, he, rfl, fun k _ => ?_, rfl, rfl, fun r hr => ?_, hk⟩
  · rw [State.setReg_reg, if_pos rfl, BitVec.getLsbD_and, State.drawByte, State.advance_rng]
  · rw [State.setReg_reg, if_neg hr, State.afterDraw_reg, State.advance_reg]

end Sys2Proof.Claims

end

/-! PROOFS, family 42_memory_index. What setting I, a store at I and a load from I answer; then the obligations. -/

section

/-! ## O36 and O37: setting I -/

namespace Sys2Proof.Machine

variable {s : State} {x : Nibble}

/-! LD F's handler tests the digit before it sets I (42_memory_index R234). -/

theorem handler_ldF_of_gt (h : (s.reg x).toNat > 15) :
    handler (.ldF x) s = .error ⟨.invalidDigit, (s.reg x).toNat⟩ := by
  simp only [handler, if_pos h]

theorem handler_ldF_of_le (h : (s.reg x).toNat ≤ 15) :
    handler (.ldF x) s = .ok (s.setIndex (BitVec.ofNat 16 (0x50 + 5 * (s.reg x).toNat))) := by
  simp only [handler, if_neg (Nat.not_lt.2 h)]

end Sys2Proof.Machine

namespace Sys2Proof.Claims

open Sys2Proof Sys2Proof.Machine

/-- An instruction whose handler sets I to an address known as a number: what it answers. -/
theorem exec_of_handler_setIndex {i : Instr} {s : State} {a : Word} {n : Nat}
    (h : handler i s.advance = .ok (s.advance.setIndex a)) (ha : a.toNat = n) :
    ∃ t, exec i s = .next t ∧ t.pc = s.pc + 2 ∧ t.index.toNat = n ∧ KeepsAllBut [.index] s t := by
  have hc : ChangesOnly [.index] (fun _ => False) s (s.advance.setIndex a) :=
    ChangesOnly.advance.trans (.setIndex (.head _) a)
  exact ⟨_, (exec_of_handler_ok h).1, rfl, ha, hc.keeps⟩

theorem toNat_add_zextByte (a : Word) (b : Byte) : (a + zextByte b).toNat = (a.toNat + b.toNat) % 65536 := by
  rw [zextByte]; bv_omega

/-- Settles O36: each handler sets I and nothing else; the sum of 16 bits wraps at 65536. -/
theorem indexIsSetAndAdded : Obligations.IndexIsSetAndAdded := by
  intro s nnn x
  refine ⟨⟨.of_encode rfl rfl, .of_encode rfl rfl⟩, fun p hp => ?_⟩
  simp only [List.mem_cons, List.not_mem_nil, or_false] at hp
  rcases hp with rfl | rfl
  · exact exec_of_handler_setIndex rfl (toNat_zextAddr nnn)
  · exact exec_of_handler_setIndex rfl (toNat_add_zextByte s.index (s.reg x))

/-- Settles O37: the address of a digit's glyph is far below 65536, so 16 bits hold it. -/
theorem fontAddressOfADigit : Obligations.FontAddressOfADigit := by
  intro s x
  refine ⟨.of_encode rfl rfl, fun h => ?_, fun h => ?_⟩
  · exact exec_of_handler_error (handler_ldF_of_gt (s := s.advance) h)
  · have ha : (BitVec.ofNat 16 (0x50 + 5 * (s.reg x).toNat)).toNat = 0x50 + 5 * (s.reg x).toNat := by
      rw [BitVec.toNat_ofNat, Nat.mod_eq_of_lt (by omega)]
    exact exec_of_handler_setIndex (handler_ldF_of_le (s := s.advance) h) ha

end Sys2Proof.Claims

end

section

/-! ## O38 and O39: storing at I -/

namespace Sys2Proof.Machine

variable {s t : State} {bs : List Byte} {n : Nat}

/-! A store of `n + 1` bytes at I: the two faults of R231, bounds first, and the store that completes. -/

theorem State.storeAtIndex_of_outOfBounds (hl : bs.length = n + 1) (hb : s.index.toNat + n > 0xFFF) :
    s.storeAtIndex bs = .error ⟨.memoryBounds, max s.index.toNat 0x1000⟩ := by
  rw [State.storeAtIndex_eq s bs (List.ne_nil_of_length_eq_add_one hl), if_pos (by omega)]

theorem State.storeAtIndex_of_inFont (hl : bs.length = n + 1) (hb : s.index.toNat + n ≤ 0xFFF)
    (hfw : s.params.fontWrite = .fault) (hlo : s.index.toNat ≤ 0x9F) (hhi : 0x50 ≤ s.index.toNat + n) :
    s.storeAtIndex bs = .error ⟨.fontWrite, max s.index.toNat 0x50⟩ := by
  rw [State.storeAtIndex_eq s bs (List.ne_nil_of_length_eq_add_one hl), if_neg (by omega),
    if_pos ⟨hfw, by omega, by omega⟩]

theorem State.exists_storeAtIndex_ok (hl : bs.length = n + 1) (hb : s.index.toNat + n ≤ 0xFFF)
    (hf : s.params.fontWrite = .allow ∨ 0x9F < s.index.toNat ∨ s.index.toNat + n < 0x50) :
    ∃ t, s.storeAtIndex bs = .ok t := by
  have hfont : ¬ (s.params.fontWrite = .fault ∧ s.index.toNat < 0xA0 ∧ 0x50 < s.index.toNat + bs.length) := by
    rintro ⟨hfw, hlo, hhi⟩
    rcases hf with hallow | habove | hbelow
    · cases hfw.symm.trans hallow
    · omega
    · omega
  rw [State.storeAtIndex_eq s bs (List.ne_nil_of_length_eq_add_one hl), if_neg (by omega), if_neg hfont]
  exact ⟨_, rfl⟩

theorem State.storeAtIndex_pc (h : s.storeAtIndex bs = .ok t) : t.pc = s.pc := by
  obtain rfl := State.storeAtIndex_ok h
  rfl

/-- A store leaves every byte outside its run alone. -/
theorem State.read_storeAtIndex_outside (h : s.storeAtIndex bs = .ok t) {a : Nat}
    (ha : a < s.index.toNat ∨ s.index.toNat + bs.length ≤ a) : Memory.read t.mem a = Memory.read s.mem a := by
  obtain rfl := State.storeAtIndex_ok h
  exact Memory.read_writeBytes_outside ha

/-- A number that is no more than a byte's is a byte's. -/
theorem toNat_ofNat_of_le_toNat {k : Nat} {b : Byte} (h : k ≤ b.toNat) : (BitVec.ofNat 8 k).toNat = k := by
  rw [BitVec.toNat_ofNat, Nat.mod_eq_of_lt (h.trans_lt b.isLt)]

end Sys2Proof.Machine

namespace Sys2Proof.Claims

open Sys2Proof Sys2Proof.Machine

/-- An instruction whose handler stores `n + 1` bytes at I, within memory and outside a protected font: what it
answers. What the stored bytes read as is said of the completed store. -/
theorem exec_of_handler_storeAtIndex {i : Instr} {s : State} {bs : List Byte} {n : Nat}
    (h : handler i s.advance = s.advance.storeAtIndex bs) (hl : bs.length = n + 1) (hb : s.index.toNat + n ≤ 0xFFF)
    (hf : s.params.fontWrite = .allow ∨ 0x9F < s.index.toNat ∨ s.index.toNat + n < 0x50) :
    ∃ t, s.advance.storeAtIndex bs = .ok t ∧ exec i s = .next t ∧ t.pc = s.pc + 2 ∧
      (∀ a, a < s.index.toNat ∨ s.index.toNat + n < a → Memory.read t.mem a = Memory.read s.mem a) ∧
      KeepsAllBut [.memory] s t := by
  obtain ⟨t, ht⟩ := State.exists_storeAtIndex_ok (s := s.advance) hl hb hf
  have hc : ChangesOnly [.memory] (fun _ => False) s t := ChangesOnly.advance.trans (.storeAtIndex (.head _) ht)
  refine ⟨t, ht, (exec_of_handler_ok (h.trans ht)).1, State.storeAtIndex_pc ht, fun a ha => ?_, hc.keeps⟩
  exact State.read_storeAtIndex_outside (s := s.advance) ht (ha.imp_right fun hgt => by rw [State.advance_index]; omega)

/-- Settles O38: the handler is a store of three bytes, each a decimal digit and so no more than the byte itself. -/
theorem storeBcdWritesThreeDigits : Obligations.StoreBcdWritesThreeDigits := by
  intro s x
  have hl : (bcdDigits (s.reg x)).length = 2 + 1 := rfl
  refine ⟨.of_encode rfl rfl, fun hb => ?_, fun hb hfw hlo hhi => ?_, fun hb hf hm => ?_⟩
  · exact exec_of_handler_error (i := .ldB x) (State.storeAtIndex_of_outOfBounds (s := s.advance) hl hb)
  · exact exec_of_handler_error (i := .ldB x) (State.storeAtIndex_of_inFont (s := s.advance) hl hb hfw hlo hhi)
  · obtain ⟨t, hst, he, hpc, hout, hk⟩ := exec_of_handler_storeAtIndex (i := .ldB x) rfl hl hb hf
    have hin (k : Nat) (hlt : k < 3) : Memory.read t.mem (s.index.toNat + k) = (bcdDigits (s.reg x))[k] :=
      State.read_storeAtIndex (s := s.advance) hm hst hlt
    refine ⟨t, he, hpc, ?_, ?_, ?_, hout, hk⟩
    · exact (congrArg _ (hin 0 (by decide))).trans (toNat_ofNat_of_le_toNat (Nat.div_le_self _ _))
    · exact (congrArg _ (hin 1 (by decide))).trans
        (toNat_ofNat_of_le_toNat ((Nat.mod_le _ _).trans (Nat.div_le_self _ _)))
    · exact (congrArg _ (hin 2 (by decide))).trans (toNat_ofNat_of_le_toNat (Nat.mod_le _ _))

/-- Settles O39: the handler is a store of the X + 1 registers V0 to Vx. -/
theorem registerDumpWritesV0ToVx : Obligations.RegisterDumpWritesV0ToVx := by
  intro s x
  have hl : (s.advance.regsTo x).length = x.toNat + 1 := length_regsTo _ x
  refine ⟨.of_encode rfl rfl, fun hb => ?_, fun hb hfw hlo hhi => ?_, fun hb hf hm => ?_⟩
  · exact exec_of_handler_error (i := .ldMemV x) (State.storeAtIndex_of_outOfBounds (s := s.advance) hl hb)
  · exact exec_of_handler_error (i := .ldMemV x) (State.storeAtIndex_of_inFont (s := s.advance) hl hb hfw hlo hhi)
  · obtain ⟨t, hst, he, hpc, hout, hk⟩ := exec_of_handler_storeAtIndex (i := .ldMemV x) rfl hl hb hf
    exact ⟨t, he, hpc, fun r hr => State.read_dump (s := s.advance) hm hst hr, hout, hk⟩

end Sys2Proof.Claims

end

section

/-! ## O40 and O41: loading from I -/

namespace Sys2Proof.Machine

variable {s t : State} {x : Nibble}

/-! A load of the X + 1 registers V0 to Vx from I: the bounds fault of R231, and the load that completes. -/

theorem State.loadFromIndex_of_outOfBounds (hb : s.index.toNat + x.toNat > 0xFFF) :
    s.loadFromIndex x = .error ⟨.memoryBounds, max s.index.toNat 0x1000⟩ := by
  rw [State.loadFromIndex_eq, if_pos (by omega)]

theorem State.exists_loadFromIndex_ok (hb : s.index.toNat + x.toNat ≤ 0xFFF) : ∃ t, s.loadFromIndex x = .ok t := by
  rw [State.loadFromIndex_eq, if_neg (by omega)]
  exact ⟨_, rfl⟩

theorem State.loadFromIndex_pc (h : s.loadFromIndex x = .ok t) : t.pc = s.pc := by
  obtain rfl := State.loadFromIndex_ok h
  rfl

theorem State.loadFromIndex_reg (h : s.loadFromIndex x = .ok t) {r : Nibble} (hr : r.toNat ≤ x.toNat) :
    t.reg r = Memory.read s.mem (s.index.toNat + r.toNat) := by
  obtain rfl := State.loadFromIndex_ok h
  rw [reg_loadedRegs, if_pos hr]

end Sys2Proof.Machine

namespace Sys2Proof.Claims

open Sys2Proof Sys2Proof.Machine

/-- Settles O40: the handler is the load with pc advanced, which reads the same bytes at the same I. -/
theorem registerLoadReadsV0ToVx : Obligations.RegisterLoadReadsV0ToVx := by
  intro s x
  refine ⟨.of_encode rfl rfl, fun hb => ?_, fun hb => ?_⟩
  · exact exec_of_handler_error (i := .ldVMem x) (State.loadFromIndex_of_outOfBounds (s := s.advance) hb)
  · obtain ⟨t, ht⟩ := State.exists_loadFromIndex_ok (s := s.advance) hb
    have hc : ChangesOnly [.registers] (mayWrite (.ldVMem x)) s t :=
      ChangesOnly.advance.trans (.loadFromIndex (.head _) (fun _ hle => hle) ht)
    exact ⟨t, (exec_of_handler_ok (i := .ldVMem x) ht).1, State.loadFromIndex_pc ht,
      fun r hr => State.loadFromIndex_reg (s := s.advance) ht hr, fun r hr => hc.regs r (Nat.not_le.2 hr), hc.keeps⟩

/-- Settles O41: the dump that completed lies in memory, so the load from the same I completes too (O40), and each byte it
reads is one the dump stored. -/
theorem dumpThenLoadRestoresTheRegisters : Obligations.DumpThenLoadRestoresTheRegisters := by
  intro s t t' u x hm _ hdump ht hf' hidx hbytes hload
  have hst := exec_ldMemV_ok hdump ht
  have hb : s.index.toNat + x.toNat < 0x1000 :=
    State.storeAtIndex_inBounds (s := s.advance) hst (by rw [length_regsTo]; omega)
  obtain ⟨-, -, hok⟩ := registerLoadReadsV0ToVx t' x
  obtain ⟨u', he, -, hreg, -, hk⟩ := hok (by rw [hidx]; omega)
  cases hload.symm.trans he
  have hfault : u.fault = t'.fault := hk .fault (by decide)
  refine ⟨hfault.trans hf', fun r hr => ?_⟩
  calc u.reg r = Memory.read t'.mem (s.index.toNat + r.toNat) := by rw [hreg r hr, hidx]
    _ = Memory.read t.mem (s.index.toNat + r.toNat) := hbytes r.toNat hr
    _ = s.reg r := State.read_dump (s := s.advance) hm hst hr

end Sys2Proof.Claims

end

/-! PROOFS, family 43_draw. The sprite engine in the statements' words, everything DXYN can do, said once; then the
obligations. -/

section

/-! ## O11: only CLS and DXYN change the frame buffer -/

namespace Sys2Proof.Claims

open Sys2Proof Sys2Proof.Machine

theorem cls_or_drw_of_screen_mem_mayChange {i : Instr} (h : .screen ∈ mayChange i) :
    (∃ n, i = .cls n) ∨ ∃ x y n, i = .drw x y n := by
  cases i with
  | cls n => exact .inl ⟨n, rfl⟩
  | drw x y n => exact .inr ⟨x, y, n, rfl⟩
  | _ => simp [mayChange] at h

/-- Settles O11: neither a fault nor the tick touches the frame buffer, so the fetched instruction changed it, and it is one
with the screen in its list (O10). -/
theorem screenChangesOnlyByClearAndDraw : Obligations.ScreenChangesOnlyByClearAndDraw := by
  refine ⟨fun s t hstep hne => ?_, fun h s hm => by simp only [Session.apply, hm]⟩
  rcases step_cases s with ⟨-, e⟩ | ⟨-, -, e⟩ | ⟨w, -, hw, e⟩
  · cases e.symm.trans hstep
    exact absurd rfl hne
  · cases e.symm.trans hstep
    exact absurd rfl hne
  · obtain ⟨u, hu, ht⟩ := endCycle_next (e.symm.trans hstep)
    have htu : t.disp = u.disp := by rcases ht with rfl | rfl <;> rfl
    refine ⟨w, hw, cls_or_drw_of_screen_mem_mayChange (by_contra fun hs => hne ?_)⟩
    exact htu.trans ((eachInstructionChangesOnlyItsOwnParts _ _ _ hu).1 .screen hs)

end Sys2Proof.Claims

end

section

/-! ## The sprite engine in the statements' words -/

namespace Sys2Proof.Claims

open Sys2Proof Sys2Proof.Machine Sys2Proof.Config

section
variable {s : State} {x y n : Nibble} {e : SpriteEdge} {vx vy : Byte} {r c p : Nat}

theorem spriteTarget_eq_pixel_iff :
    spriteTarget e (originX vx) (originY vy) r c = .pixel p ↔ Aims e vx vy r c p := by
  cases e with
  | literal =>
    simp only [spriteTarget, ite_eq_iff, Target.pixel.injEq, reduceCtorEq, and_false, or_false]
    simp only [Aims, linearIndex, spriteIndex, originX, originY]
    omega
  | clip =>
    simp only [spriteTarget, ite_eq_iff, Target.pixel.injEq, reduceCtorEq, and_false, or_false]
    simp only [Aims, linearIndex, spriteIndex, originX, originY, and_assoc, eq_comm]
  | wrap =>
    simp only [spriteTarget, Target.pixel.injEq]
    exact eq_comm

/-- Only under Literal can a bit be out (R262). -/
theorem spriteTarget_eq_out_iff :
    spriteTarget e (originX vx) (originY vy) r c = .out ↔ e = .literal ∧ spriteIndex vx vy r c > 2047 := by
  cases e with
  | literal =>
    simp only [spriteTarget, ite_eq_iff, reduceCtorEq, and_false, false_or, and_true, true_and, Nat.not_le]
    rfl
  | clip => simp only [spriteTarget, ite_eq_iff, reduceCtorEq, and_false, false_and, or_false]
  | wrap => simp only [spriteTarget, reduceCtorEq, false_and]

/-- The set bits of the sprite at I, in drawing order (R260). -/
def setBits (s : State) (n : Nibble) : List (Nat × Nat) := spriteBits 0 (Memory.readBytes s.mem s.index.toNat n.toNat)

theorem mem_setBits {b : Nat × Nat} : b ∈ setBits s n ↔ SetBit s n b.1 b.2 := mem_spriteBits_readBytes

/-- The pixels the set bits aim at, in drawing order (R260). -/
def drawnPixels (s : State) (x y n : Nibble) : List Nat :=
  targetPixels s.params.spriteEdge (originX (s.reg x)) (originY (s.reg y)) (setBits s n)

theorem mem_drawnPixels : p ∈ drawnPixels s x y n ↔ Drawn s x y n p := by
  simp only [drawnPixels, mem_targetPixels, mem_setBits, spriteTarget_eq_pixel_iff, Prod.exists, Drawn]

theorem nodup_drawnPixels : (drawnPixels s x y n).Nodup := by
  refine nodup_targetPixels (pairwise_spriteBits 0 _) fun b hb => ?_
  obtain ⟨hr, hc, -⟩ := mem_setBits.1 hb
  exact ⟨by omega, hc⟩

theorem lt_of_mem_drawnPixels (h : p ∈ drawnPixels s x y n) : p < 2048 := by
  obtain ⟨b, -, hb⟩ := mem_targetPixels.1 h
  exact spriteTarget_lt hb

/-- In a list in drawing order, what comes before the member `b` stands in front of it. -/
theorem mem_of_bitBefore {pre post : List (Nat × Nat)} {a b : Nat × Nat} (hp : (pre ++ b :: post).Pairwise bitBefore)
    (ha : a ∈ pre ++ b :: post) (hab : bitBefore a b) : a ∈ pre := by
  obtain ⟨-, hb, -⟩ := List.pairwise_append.1 hp
  have hpost := (List.pairwise_cons.1 hb).1
  simp only [bitBefore] at hab hpost
  rcases List.mem_append.1 ha with h | h
  · exact h
  · rcases List.mem_cons.1 h with rfl | h
    · omega
    · have := hpost a h
      omega

end

/-! ## Everything DXYN can do -/

/-- The sprite reads no byte, or all its rows lie in memory (R260). -/
def RowsInMemory (s : State) (n : Nibble) : Prop := n.toNat = 0 ∨ s.index.toNat + n.toNat ≤ 0x1000

/-- The set bit (r, c) has an index past pixel 2047 (R262). -/
def BitPast (s : State) (x y n : Nibble) (r c : Nat) : Prop :=
  SetBit s n r c ∧ spriteIndex (s.reg x) (s.reg y) r c > 2047

/-- `t` is `s` after the drawing: pc advanced, the aimed pixels flipped and VF the collision (R263, R266). -/
structure DrawnTo (s : State) (x y n : Nibble) (t : State) : Prop where
  pc : t.pc = s.pc + 2
  flipped : ∀ p, Drawn s x y n p → t.disp.lit p = !s.disp.lit p
  kept : ∀ p, ¬ Drawn s x y n p → t.disp.lit p = s.disp.lit p
  hit : (∃ p, Drawn s x y n p ∧ s.disp.lit p = true) → t.reg 15 = 1
  noHit : ¬ (∃ p, Drawn s x y n p ∧ s.disp.lit p = true) → t.reg 15 = 0
  regs : ∀ r, r ≠ 15 → t.reg r = s.reg r
  parts : KeepsAllBut [.registers, .screen] s t

theorem changesOnly_screen_and_vf (s : State) (d : Frame) (b : Byte) :
    ChangesOnly [.registers, .screen] (· = 15) s ((s.advance.setDisp d).setReg vf b) := by
  have hd : ChangesOnly [.registers, .screen] (· = 15) s (s.advance.setDisp d) :=
    ChangesOnly.advance.trans (.setDisp (.tail _ (.head _)) d)
  exact hd.trans (.setReg (w := (· = 15)) (.head _) rfl b)

/-- The state `State.drawSprite` answers when both checks pass, with pc advanced (R260). -/
def drawnState (s : State) (x y n : Nibble) : State :=
  let r := drawPixels s.disp false (drawnPixels s x y n)
  (s.advance.setDisp r.1).setReg vf (flagByte r.2)

theorem drawnTo_drawnState (s : State) (x y n : Nibble) : DrawnTo s x y n (drawnState s x y n) := by
  have hnodup : (drawnPixels s x y n).Nodup := nodup_drawnPixels
  obtain ⟨hlit, hflag⟩ := drawPixels_spec (d := s.disp) (hit := false) hnodup fun _ => lt_of_mem_drawnPixels
  have hvf : (drawnState s x y n).reg 15 = flagByte ((drawnPixels s x y n).any fun p => s.disp.lit p) := by
    rw [drawnState, State.setReg_reg, if_pos rfl, hflag, Bool.false_or]
  have hany : ((drawnPixels s x y n).any fun p => s.disp.lit p) = true ↔
      ∃ p, Drawn s x y n p ∧ s.disp.lit p = true := by
    simp only [List.any_eq_true, mem_drawnPixels]
  have hc : ChangesOnly [.registers, .screen] (· = 15) s (drawnState s x y n) := changesOnly_screen_and_vf s _ _
  exact
    { pc := rfl
      flipped := fun p hp => (hlit p).trans (if_pos (mem_drawnPixels.2 hp))
      kept := fun p hp => (hlit p).trans (if_neg (mt mem_drawnPixels.1 hp))
      hit := fun h => hvf.trans (congrArg flagByte (hany.2 h))
      noHit := fun h => hvf.trans (congrArg flagByte (Bool.eq_false_iff.2 (mt hany.1 h)))
      regs := hc.regs
      parts := hc.keeps }

/-- Everything DXYN answers: the record of a memory fault, the record of a display fault at the first set bit past pixel
2047, or the drawing (R260, R262, R265). -/
theorem exec_drw_cases (s : State) (x y n : Nibble) :
    (¬ RowsInMemory s n ∧
      exec (.drw x y n) s = .next (Recorded s (.drw x y n) .memoryBounds (max s.index.toNat 0x1000))) ∨
    (RowsInMemory s n ∧ s.params.spriteEdge = .literal ∧ ∃ r c, BitPast s x y n r c ∧
      (∀ r' c', bitBefore (r', c') (r, c) → ¬ BitPast s x y n r' c') ∧
      exec (.drw x y n) s =
        .next (Recorded s (.drw x y n) .displayBounds (spriteIndex (s.reg x) (s.reg y) r c))) ∨
    (RowsInMemory s n ∧ (s.params.spriteEdge = .literal → ∀ r c, ¬ BitPast s x y n r c) ∧
      ∃ t, exec (.drw x y n) s = .next t ∧ DrawnTo s x y n t) := by
  rcases s.advance.drawSprite_cases x y n with
    ⟨h0, hm, e⟩ | ⟨hm, pre, ⟨r, c⟩, post, hbits, hpre, hout, e⟩ | ⟨hm, hin, e⟩
  · exact .inl ⟨not_or.2 ⟨h0, Nat.not_le.2 hm⟩, exec_of_handler_error (i := .drw x y n) e⟩
  · have hbits : setBits s n = pre ++ (r, c) :: post := hbits
    obtain ⟨hlit, hpast⟩ := spriteTarget_eq_out_iff.1 hout
    have hset : SetBit s n r c := mem_setBits.1 (hbits ▸ List.mem_append_right pre List.mem_cons_self)
    refine .inr (.inl ⟨hm, hlit, r, c, ⟨hset, hpast⟩, fun r' c' hlt ⟨hset', hpast'⟩ => ?_,
      exec_of_handler_error (i := .drw x y n) e⟩)
    have hmem : (r', c') ∈ pre :=
      mem_of_bitBefore (hbits ▸ pairwise_spriteBits 0 _) (hbits ▸ mem_setBits.2 hset') hlt
    exact hpre _ hmem (spriteTarget_eq_out_iff.2 ⟨hlit, hpast'⟩)
  · refine .inr (.inr ⟨hm, fun hlit r c ⟨hset, hpast⟩ => ?_, _, (exec_of_handler_ok (i := .drw x y n) e).1,
      drawnTo_drawnState s x y n⟩)
    exact hin (r, c) (mem_setBits.2 hset) (spriteTarget_eq_out_iff.2 ⟨hlit, hpast⟩)

section
variable {s t : State} {x y n : Nibble}

theorem DrawnTo.fault (h : DrawnTo s x y n t) : t.fault = s.fault := h.parts .fault (by decide)

theorem DrawnTo.lit_ne_iff (h : DrawnTo s x y n t) (p : Nat) : t.disp.lit p ≠ s.disp.lit p ↔ Drawn s x y n p := by
  refine ⟨fun hne => by_contra fun hp => hne (h.kept p hp), fun hp => ?_⟩
  rw [h.flipped p hp]
  exact Bool.not_ne_self _

/-- A DXYN that recorded no fault found its rows in memory and no bit out, and drew. -/
theorem drawnTo_of_fault_eq_none (h : exec (.drw x y n) s = .next t) (ht : t.fault = none) :
    RowsInMemory s n ∧ (s.params.spriteEdge = .literal → ∀ r c, ¬ BitPast s x y n r c) ∧ DrawnTo s x y n t := by
  rcases exec_drw_cases s x y n with ⟨-, e⟩ | ⟨-, -, r, c, -, -, e⟩ | ⟨hm, hin, u, e, hd⟩
  · cases h.symm.trans e
    cases ht
  · cases h.symm.trans e
    cases ht
  · cases h.symm.trans e
    exact ⟨hm, hin, hd⟩

end

end Sys2Proof.Claims

end

section

/-! ## O43, O44, O45 and O46: one DXYN -/

namespace Sys2Proof.Claims

open Sys2Proof Sys2Proof.Machine

/-- Settles O43: of the three answers of DXYN the hypotheses leave the drawing. -/
theorem drawFlipsTheAimedPixels : Obligations.DrawFlipsTheAimedPixels := by
  intro s x y n
  refine ⟨.of_encode rfl rfl, fun hm hin => ?_⟩
  rcases exec_drw_cases s x y n with ⟨hout, -⟩ | ⟨-, hlit, r, c, ⟨hset, hpast⟩, -, -⟩ | ⟨-, -, t, e, hd⟩
  · exact absurd hm hout
  · exact absurd (hin hlit r c hset) (Nat.not_le.2 hpast)
  · exact ⟨t, e, hd.pc, hd.flipped, hd.kept, hd.hit, hd.noHit, hd.regs, hd.parts⟩

/-- Settles O44: each of the three answers of DXYN decides both sides. -/
theorem spriteEdgeDecidesTheTargets : Obligations.SpriteEdgeDecidesTheTargets := by
  intro s t x y n hf h
  rcases exec_drw_cases s x y n with ⟨hout, e⟩ | ⟨hm, hlit, r, c, hpast, -, e⟩ | ⟨-, hin, u, e, hd⟩
  · cases h.symm.trans e
    refine ⟨⟨?_, fun ⟨hm, _⟩ => absurd (.inr hm) hout⟩, nofun⟩
    rintro ⟨_, hr, hcause⟩
    cases hr
    cases hcause
  · cases h.symm.trans e
    have hrow : r < n.toNat := hpast.1.1
    exact ⟨⟨fun _ => ⟨hm.resolve_left (by omega), hlit, r, c, hpast⟩, fun _ => ⟨_, rfl, rfl⟩⟩, nofun⟩
  · cases h.symm.trans e
    refine ⟨⟨?_, fun ⟨_, hlit, r, c, hpast⟩ => absurd hpast (hin hlit r c)⟩, fun _ => hd.lit_ne_iff⟩
    rintro ⟨_, hr, -⟩
    cases hr.symm.trans (hd.fault.trans hf)

/-- Settles O45: the first failing row is the address of the memory fault; of two set bits past pixel 2047 with none before
either, neither is before the other, so they are one. -/
theorem drawChecksMemoryThenDisplay : Obligations.DrawChecksMemoryThenDisplay := by
  intro s x y n
  refine ⟨fun h0 hm => ?_, fun hm hlit r c hset hpast hfirst => ?_⟩
  · rcases exec_drw_cases s x y n with ⟨-, e⟩ | ⟨hin, -⟩ | ⟨hin, -⟩
    · exact e
    · exact absurd hin (not_or.2 ⟨h0, Nat.not_le.2 hm⟩)
    · exact absurd hin (not_or.2 ⟨h0, Nat.not_le.2 hm⟩)
  · rcases exec_drw_cases s x y n with ⟨hout, -⟩ | ⟨-, -, r', c', hp', hfirst', e⟩ | ⟨-, hin, -⟩
    · exact absurd (.inr hm) hout
    · have hlt : ¬ bitBefore (r', c') (r, c) := fun hb => absurd (hfirst r' c' hp'.1 hb) (Nat.not_le.2 hp'.2)
      have hgt : ¬ bitBefore (r, c) (r', c') := fun hb => hfirst' r c hb ⟨hset, hpast⟩
      simp only [bitBefore] at hlt hgt
      obtain rfl : r' = r := by omega
      obtain rfl : c' = c := by omega
      exact e
    · exact absurd ⟨hset, hpast⟩ (hin hlit r c)

theorem not_drawn_of_height_zero {s : State} {x y : Nibble} {p : Nat} : ¬ Drawn s x y 0 p := by
  rintro ⟨r, c, ⟨hr, -⟩, -⟩
  exact absurd hr (Nat.not_lt_zero r)

/-- Settles O46: O43 with no set bit, so no pixel is aimed at and the frame buffer is the same. -/
theorem drawOfHeightZeroClearsVf : Obligations.DrawOfHeightZeroClearsVf := by
  intro s x y
  obtain ⟨t, e, hpc, -, hkept, -, hvf, hregs, hk⟩ :=
    (drawFlipsTheAimedPixels s x y 0).2 (.inl rfl) fun _ r _ hset => absurd hset.1 (Nat.not_lt_zero r)
  have hdisp : t.disp = s.disp := Frame.ext_lit fun p _ => hkept p not_drawn_of_height_zero
  refine ⟨t, e, hpc, hvf fun ⟨_, hp, _⟩ => not_drawn_of_height_zero hp, hregs, fun q hq => ?_⟩
  by_cases hs : q = .screen
  · subst hs
    exact hdisp
  · exact hk q (by simpa [hs] using hq)

end Sys2Proof.Claims

end

section

/-! ## O47: the same DXYN twice -/

namespace Sys2Proof.Claims

open Sys2Proof Sys2Proof.Machine

section
variable {s t : State} {x y n : Nibble} (h : DrawnTo s x y n t)
include h

/-- The drawing leaves the sprite in memory as it is. -/
theorem DrawnTo.setBit_iff {m : Nibble} {r c : Nat} : SetBit t m r c ↔ SetBit s m r c := by
  have hi : t.index = s.index := h.parts .index (by decide)
  have hm : ∀ a, Memory.read t.mem a = Memory.read s.mem a := h.parts .memory (by decide)
  simp only [SetBit, hi, hm]

theorem DrawnTo.rowsInMemory_iff {m : Nibble} : RowsInMemory t m ↔ RowsInMemory s m := by
  have hi : t.index = s.index := h.parts .index (by decide)
  simp only [RowsInMemory, hi]

/-- Only VF changes, so an origin in other registers stays, and the same pixels are aimed at (R266, R267). -/
theorem DrawnTo.drawn_iff (hx : x ≠ 15) (hy : y ≠ 15) {p : Nat} : Drawn t x y n p ↔ Drawn s x y n p := by
  have hp : t.params = s.params := h.parts .params (by decide)
  simp only [Drawn, h.setBit_iff, hp, h.regs x hx, h.regs y hy]

end

/-- Settles O47: the first DXYN leaves all that the second one's checks and targets depend on, so O43 applies to the second;
each aimed pixel is flipped twice, and it is lit between the two iff it was unlit before. -/
theorem doubleDrawRestoresTheScreen : Obligations.DoubleDrawRestoresTheScreen := by
  intro s t x y n hx hy _ he ht
  obtain ⟨hm, hin, hd⟩ := drawnTo_of_fault_eq_none he ht
  have hp : t.params = s.params := hd.parts .params (by decide)
  have hin' : t.params.spriteEdge = .literal → ∀ r c, SetBit t n r c → spriteIndex (t.reg x) (t.reg y) r c ≤ 2047 := by
    intro hlit r c hset
    rw [hd.regs x hx, hd.regs y hy]
    exact Nat.not_lt.1 fun hpast => hin (hp ▸ hlit) r c ⟨hd.setBit_iff.1 hset, hpast⟩
  obtain ⟨u, e, -, hflip, hkept, hhit, hnoHit, -, hk⟩ :=
    (drawFlipsTheAimedPixels t x y n).2 (hd.rowsInMemory_iff.2 hm) hin'
  have hiff : (∃ p, Drawn t x y n p ∧ t.disp.lit p = true) ↔ ∃ p, Drawn s x y n p ∧ s.disp.lit p = false := by
    refine exists_congr fun p => ?_
    rw [hd.drawn_iff hx hy]
    exact and_congr_right fun hp => by rw [hd.flipped p hp, Bool.not_eq_true']
  have hfault : u.fault = t.fault := hk .fault (by decide)
  refine ⟨u, e, hfault.trans ht, Frame.ext_lit fun p _ => ?_, fun hvf => ?_, fun h => hhit (hiff.2 h)⟩
  · by_cases hp : Drawn s x y n p
    · rw [hflip p ((hd.drawn_iff hx hy).2 hp), hd.flipped p hp, Bool.not_not]
    · rw [hkept p (mt (hd.drawn_iff hx hy).1 hp), hd.kept p hp]
  · refine hiff.1 (by_contra fun hno => ?_)
    cases hvf.symm.trans (hnoHit hno)

end Sys2Proof.Claims

end

/-! PROOFS, family 44_input. What a skip on a key and the wait for a key answer; then the obligations. -/

section

/-! ## The keys -/

namespace Sys2Proof.Machine

variable {s : State} {k : Nat}

/-- A key of the keypad is pressed when the latch says so (10_state R42). -/
theorem State.pressed_of_lt (h : k < 16) : s.pressed k = s.key[k] := dif_pos h

theorem State.leastKey_eq_none (h : ∀ k, (hk : k < 16) → s.key[k] = false) : s.leastKey = none := by
  rcases s.leastKey_cases with ⟨e, -⟩ | ⟨k, hk, -, hp, -⟩
  · exact e
  · rw [State.pressed_of_lt hk, h k hk] at hp
    cases hp

/-- Of two least pressed keys neither is below the other. -/
theorem State.leastKey_eq_some (hk : k < 16) (hp : s.key[k] = true)
    (hleast : ∀ j, (hj : j < k) → s.key[j] = false) : s.leastKey = some k := by
  rw [← State.pressed_of_lt hk] at hp
  rcases s.leastKey_cases with ⟨-, hno⟩ | ⟨m, hm, e, hpm, hmin⟩
  · cases (hno k).symm.trans hp
  · have hkm : ¬ k < m := fun hlt => by cases (hmin k hlt).symm.trans hp
    have hmk : ¬ m < k := fun hlt => by
      rw [State.pressed_of_lt hm, hleast m hlt] at hpm
      cases hpm
    obtain rfl : m = k := by omega
    exact e

end Sys2Proof.Machine

end

section

/-! ## O48: the skips on a key -/

namespace Sys2Proof.Claims

open Sys2Proof Sys2Proof.Machine

variable {i : Instr} {s : State} {x : Nibble} {c b : Bool}

/-- An instruction whose handler skips on the flag `c`, for a condition `d` that says `c` is set. -/
theorem skip_addsTwoIf_flag {d : Prop} [Decidable d] (h : handler i s.advance = .ok (s.advance.skipIf c))
    (hcd : c = true ↔ d) :
    ∃ t, exec i s = .next t ∧ t.pc = (if d then s.pc + 4 else s.pc + 2) ∧ KeepsAllBut [] s t := by
  simpa only [decide_eq_true_eq] using skip_addsTwoIf (c := c = true) (by rwa [Bool.decide_eq_true]) hcd

/-- An instruction whose handler tests the key index `V[x]` and then skips on `c`, for a `c` that says the key's state is
`b`: what O48 says of each of its two rows. -/
theorem keySkip_testsTheLatch
    (h : handler i s.advance =
      if (s.reg x).toNat > 15 then .error ⟨.keyIndex, (s.reg x).toNat⟩ else .ok (s.advance.skipIf c))
    (hc : (hx : (s.reg x).toNat < 16) → (c = true ↔ s.key[(s.reg x).toNat] = b)) :
    ((s.reg x).toNat > 15 → exec i s = .next (Recorded s i .keyIndex (s.reg x).toNat)) ∧
      ((hx : (s.reg x).toNat < 16) → ∃ t, exec i s = .next t ∧
        t.pc = (if s.key[(s.reg x).toNat] = b then s.pc + 4 else s.pc + 2) ∧ KeepsAllBut [] s t) := by
  refine ⟨fun hx => ?_, fun hx => ?_⟩
  · rw [if_pos hx] at h
    exact exec_of_handler_error h
  · rw [if_neg (by omega)] at h
    exact skip_addsTwoIf_flag h (hc hx)

/-- Settles O48: SKP's flag is the key's state, SKNP's its negation. -/
theorem keySkipsTestTheLatch : Obligations.KeySkipsTestTheLatch := by
  intro s x
  refine ⟨⟨.of_encode rfl rfl, .of_encode rfl rfl⟩, fun p hp => ?_⟩
  simp only [List.mem_cons, List.not_mem_nil, or_false] at hp
  rcases hp with rfl | rfl
  · exact keySkip_testsTheLatch (c := s.pressed (s.reg x).toNat) rfl fun hx => by rw [State.pressed_of_lt hx]
  · exact keySkip_testsTheLatch (c := !s.pressed (s.reg x).toNat) rfl fun hx => by
      rw [State.pressed_of_lt hx, Bool.not_eq_true']

end Sys2Proof.Claims

end

section

/-! ## O49: LD Vx, K -/

namespace Sys2Proof.Machine

variable {s : State} {x : Nibble}

theorem handler_ldK_of_none (h : s.leastKey = none) : handler (.ldK x) s = .ok (s.setPc (s.pc - 2)) := by
  simp only [handler, h]

theorem handler_ldK_of_some {k : Nat} (h : s.leastKey = some k) :
    handler (.ldK x) s = .ok (s.setReg x (BitVec.ofNat 8 k)) := by
  simp only [handler, h]

/-- The net effect of + 2 and - 2 on pc is none (44_input R292). -/
theorem State.advance_setPc_back (s : State) : s.advance.setPc (s.advance.pc - 2) = s := by
  rw [State.advance_pc, BitVec.add_sub_cancel]
  rfl

end Sys2Proof.Machine

namespace Sys2Proof.Claims

open Sys2Proof Sys2Proof.Machine

/-- With no key pressed the wait answers the very state it started from. -/
theorem exec_ldK_of_no_key {s : State} {x : Nibble} (h : ∀ k, (hk : k < 16) → s.key[k] = false) :
    exec (.ldK x) s = .next s := by
  have hh : handler (.ldK x) s.advance = .ok (s.advance.setPc (s.advance.pc - 2)) :=
    handler_ldK_of_none (State.leastKey_eq_none h)
  rw [State.advance_setPc_back] at hh
  exact (exec_of_handler_ok hh).1

/-- Settles O49: with no key the state is the same; else the handler writes the least key, which a byte holds. -/
theorem waitForKeyTakesTheLeastKey : Obligations.WaitForKeyTakesTheLeastKey := by
  intro s x
  refine ⟨.of_encode rfl rfl, fun hno => ?_, fun k hk hp hleast => ?_⟩
  · exact ⟨s, exec_ldK_of_no_key hno, rfl, fun p _ => .refl p s⟩
  · have hh : handler (.ldK x) s.advance = .ok (s.advance.setReg x (BitVec.ofNat 8 k)) :=
      handler_ldK_of_some (State.leastKey_eq_some hk hp hleast)
    have hbyte : (BitVec.ofNat 8 k).toNat = k := by
      rw [BitVec.toNat_ofNat, Nat.mod_eq_of_lt (by omega)]
    obtain ⟨t, e, hpc, hx, hregs, hkeep⟩ := exec_of_handler_setReg hh
    exact ⟨t, e, hpc, by rw [hx, hbyte], hregs, hkeep⟩

end Sys2Proof.Claims

end

section

/-! ## O50: waiting -/

namespace Sys2Proof.Claims

open Sys2Proof Sys2Proof.Machine

variable {s t : State}

/-- The first of `k + 1` cycles, and the `k` that follow it. -/
theorem run_succ_of_step (h : step s = .next t) (k : Nat) : Host.Core.run core (k + 1) s = Host.Core.run core k t := by
  have h' : core.step s = .next t := h
  simp only [Host.Core.run, h']

/-- The tick changes the timers alone (45_timers R315). -/
theorem ChangesOnly.tick {ps : List Part} {w : Nibble → Prop} (hd : .delay ∈ ps) (hs : .sound ∈ ps) :
    ChangesOnly ps w s s.tick :=
  (ChangesOnly.setDt hd (countDown s.dt)).trans (.setSt hs (countDown s.st))

/-- A cycle that waits for a key is a tick and nothing more. -/
theorem step_of_waiting {w : Word} {x : Nibble} (hf : s.fault = none) (hw : s.fetch = some w)
    (hd : decodeWord w = .ldK x) (hno : ∀ j, (h : j < 16) → s.key[j] = false) : step s = .next s.tick :=
  step_completes hf hw (hd.symm ▸ exec_ldK_of_no_key hno) hf

/-- Settles O50, by induction on the number of cycles: each is a tick, after which the state still waits at the same pc,
as no tick changes the fault record, the fetched word or the keys. -/
theorem waitingChangesOnlyTheTimers : Obligations.WaitingChangesOnlyTheTimers := by
  intro k
  induction k with
  | zero =>
    intro s w x _ _ _ _
    exact ⟨s, rfl, rfl, fun p _ => .refl p s⟩
  | succ k ih =>
    intro s w x hf hw hd hno
    obtain ⟨t, e, hpc, hkeep⟩ := ih s.tick w x hf hw hd hno
    have htick : ChangesOnly [.delay, .sound] (fun _ => False) s s.tick := .tick (.head _) (.tail _ (.head _))
    refine ⟨t, ?_, hpc, fun p hp => (htick.keeps p hp).trans (hkeep p hp)⟩
    rw [run_succ_of_step (step_of_waiting hf hw hd hno), e]

end Sys2Proof.Claims

end

/-! PROOFS, family 45_timers. Which instructions may set a timer, and what a completed cycle answers; then the obligations. -/

section

/-! ## The timers in an instruction's answer -/

namespace Sys2Proof.Claims

open Sys2Proof Sys2Proof.Machine

variable {i : Instr} {s t : State}

/-! FX15 and FX18 are the only instructions with a timer in their list (45_timers R315). -/

theorem ldDt_of_delay_mem_mayChange (h : .delay ∈ mayChange i) : ∃ x, i = .ldDt x := by
  cases i with
  | ldDt x => exact ⟨x, rfl⟩
  | _ => simp [mayChange] at h

theorem ldSt_of_sound_mem_mayChange (h : .sound ∈ mayChange i) : ∃ x, i = .ldSt x := by
  cases i with
  | ldSt x => exact ⟨x, rfl⟩
  | _ => simp [mayChange] at h

/-- Neither of the two may fault. -/
theorem timers_notMem_of_fault_mem_mayChange (h : .fault ∈ mayChange i) :
    .delay ∉ mayChange i ∧ .sound ∉ mayChange i := by
  constructor
  · intro hd
    obtain ⟨x, rfl⟩ := ldDt_of_delay_mem_mayChange hd
    simp [mayChange] at h
  · intro hs
    obtain ⟨x, rfl⟩ := ldSt_of_sound_mem_mayChange hs
    simp [mayChange] at h

theorem exec_dt_of_ne_ldDt (h : exec i s = .next t) (hi : ∀ x, i ≠ .ldDt x) : t.dt = s.dt :=
  (eachInstructionChangesOnlyItsOwnParts i s t h).1 .delay fun hd =>
    let ⟨x, e⟩ := ldDt_of_delay_mem_mayChange hd
    hi x e

theorem exec_st_of_ne_ldSt (h : exec i s = .next t) (hi : ∀ x, i ≠ .ldSt x) : t.st = s.st :=
  (eachInstructionChangesOnlyItsOwnParts i s t h).1 .sound fun hs =>
    let ⟨x, e⟩ := ldSt_of_sound_mem_mayChange hs
    hi x e

theorem exec_ldDt (s : State) (x : Nibble) : exec (.ldDt x) s = .next (s.advance.setDt (s.reg x)) := rfl

theorem exec_ldSt (s : State) (x : Nibble) : exec (.ldSt x) s = .next (s.advance.setSt (s.reg x)) := rfl

/-- An instruction that leaves a record where none stood leaves both timers: it may change the record, so neither timer. -/
theorem exec_keeps_timers_of_faults (h : exec i s = .next t) (hs : s.fault = none) (ht : t.fault ≠ none) :
    t.dt = s.dt ∧ t.st = s.st := by
  have hk := (eachInstructionChangesOnlyItsOwnParts i s t h).1
  have hfault : .fault ∈ mayChange i := by
    by_contra hn
    have hsame : t.fault = s.fault := hk .fault hn
    exact ht (hsame.trans hs)
  obtain ⟨hdelay, hsound⟩ := timers_notMem_of_fault_mem_mayChange hfault
  exact ⟨hk .delay hdelay, hk .sound hsound⟩

end Sys2Proof.Claims

end

section

/-! ## O9: the tick -/

namespace Sys2Proof

open Sys2Proof.Machine Sys2Proof.Claims

variable {s t : State} {w : Word}

/-- A cycle that fetched a word answers its instruction's state: ticked with no record in it, else as it is (30_encoding
R104). -/
theorem step_fetched_cases (hs : s.fault = none) (hw : s.fetch = some w) (h : step s = .next t) :
    ∃ u, exec (decodeWord w) s = .next u ∧ (t = u.tick ∧ u.fault = none ∨ t = u ∧ u.fault ≠ none) := by
  obtain ⟨u, hu, e⟩ := step_of_fetch hs hw
  obtain rfl := Host.Outcome.next.inj (e.symm.trans h)
  refine ⟨u, hu, ?_⟩
  split
  · next hc => exact .inl ⟨rfl, hc⟩
  · next hc => exact .inr ⟨rfl, hc⟩

/-- A completed cycle is the fetched instruction, then the tick (45_timers R315). -/
theorem CycleCompletes.exec_then_tick (h : CycleCompletes s t) (hw : s.fetch = some w) :
    ∃ u, exec (decodeWord w) s = .next u ∧ t = u.tick := by
  obtain ⟨hs, hstep, ht⟩ := h
  obtain ⟨u, hu, ⟨e, -⟩ | ⟨rfl, hc⟩⟩ := step_fetched_cases hs hw hstep
  · exact ⟨u, hu, e⟩
  · exact absurd ht hc

theorem CycleCompletes.dt_of_ne_ldDt (h : CycleCompletes s t) (hw : s.fetch = some w)
    (hi : ∀ x, decodeWord w ≠ .ldDt x) : t.dt.toNat = s.dt.toNat - 1 := by
  obtain ⟨u, hu, rfl⟩ := h.exec_then_tick hw
  rw [State.tick_dt, toNat_countDown, exec_dt_of_ne_ldDt hu hi]

theorem CycleCompletes.st_of_ne_ldSt (h : CycleCompletes s t) (hw : s.fetch = some w)
    (hi : ∀ x, decodeWord w ≠ .ldSt x) : t.st.toNat = s.st.toNat - 1 := by
  obtain ⟨u, hu, rfl⟩ := h.exec_then_tick hw
  rw [State.tick_st, toNat_countDown, exec_st_of_ne_ldSt hu hi]

theorem CycleCompletes.dt_of_ldDt {x : Nibble} (h : CycleCompletes s t) (hw : s.fetch = some w)
    (hi : decodeWord w = .ldDt x) : t.dt.toNat = (s.reg x).toNat - 1 := by
  obtain ⟨u, hu, rfl⟩ := h.exec_then_tick hw
  rw [hi, exec_ldDt] at hu
  obtain rfl := Host.Outcome.next.inj hu
  exact toNat_countDown (s.reg x)

theorem CycleCompletes.st_of_ldSt {x : Nibble} (h : CycleCompletes s t) (hw : s.fetch = some w)
    (hi : decodeWord w = .ldSt x) : t.st.toNat = (s.reg x).toNat - 1 := by
  obtain ⟨u, hu, rfl⟩ := h.exec_then_tick hw
  rw [hi, exec_ldSt] at hu
  obtain rfl := Host.Outcome.next.inj hu
  exact toNat_countDown (s.reg x)

/-- A cycle that faults runs no tick, and what faulted set no timer. -/
theorem step_keeps_timers_of_faults (hs : s.fault = none) (h : step s = .next t) (ht : t.fault ≠ none) :
    t.dt = s.dt ∧ t.st = s.st := by
  rcases step_cases s with ⟨hne, -⟩ | ⟨-, -, e⟩ | ⟨w, -, hw, -⟩
  · exact absurd hs hne
  · obtain rfl := Host.Outcome.next.inj (e.symm.trans h)
    exact ⟨rfl, rfl⟩
  · obtain ⟨u, hu, ⟨rfl, hc⟩ | ⟨rfl, hc⟩⟩ := step_fetched_cases hs hw h
    · exact absurd hc ht
    · exact exec_keeps_timers_of_faults hu hs hc

/-- Settles O9: a completed cycle by its instruction, FX15 and FX18 apart from the rest; a cycle that faults keeps both
timers. -/
theorem timersTickOncePerCompletedCycle : Obligations.TimersTickOncePerCompletedCycle :=
  ⟨fun _ _ _ h hw =>
    ⟨h.dt_of_ne_ldDt hw, h.st_of_ne_ldSt hw, fun _ => h.dt_of_ldDt hw, fun _ => h.st_of_ldSt hw⟩,
    fun _ _ => step_keeps_timers_of_faults⟩

end Sys2Proof

end

section

/-! ## O52: the countdown -/

namespace Sys2Proof.Claims

open Sys2Proof Sys2Proof.Machine

/-- A timer that every completed cycle of an allowed instruction counts down by one is down by `k` after `k` of them,
stopping at 0. -/
theorem Cycles.countDown {ok : Instr → Prop} {timer : State → Byte}
    (hone : ∀ {s u w}, CycleCompletes s u → s.fetch = some w → ok (decodeWord w) →
      (timer u).toNat = (timer s).toNat - 1) :
    ∀ {k : Nat} {s t : State}, Cycles ok k s t → (timer t).toNat = (timer s).toNat - k := by
  intro k
  induction k with
  | zero =>
    intro s t h
    obtain rfl : t = s := h
    rfl
  | succ k ih =>
    intro s t h
    obtain ⟨u, w, hw, hok, hcycle, hrest⟩ := h
    rw [ih hrest, hone hcycle hw hok, Nat.sub_sub, Nat.add_comm 1 k]

/-- Settles O52: each cycle counts the timer down by one (O9). -/
theorem timersCountDownToZero : Obligations.TimersCountDownToZero := fun _ _ _ =>
  ⟨Cycles.countDown (timer := State.dt) CycleCompletes.dt_of_ne_ldDt,
    Cycles.countDown (timer := State.st) CycleCompletes.st_of_ne_ldSt⟩

end Sys2Proof.Claims

end

section

/-! ## O51: the transfers -/

namespace Sys2Proof.Claims

open Sys2Proof Sys2Proof.Machine

/-- Settles O51: each handler writes its one destination; the tick then counts down the DT that FX07 left as it was, or the
timer just set. -/
theorem timerTransfers : Obligations.TimerTransfers := by
  intro s x
  refine ⟨⟨.of_encode rfl rfl, .of_encode rfl rfl, .of_encode rfl rfl⟩, ?_, ?_, ?_⟩
  · obtain ⟨t, e, hpc, hx, hregs, hkeep⟩ := exec_of_handler_setReg (i := .ldVDt x) (s := s) rfl
    have hdt : t.dt = s.dt := exec_dt_of_ne_ldDt e (fun _ => nofun)
    exact ⟨t, e, hpc, hx, hregs, by rw [State.tick_dt, toNat_countDown, hdt], hkeep⟩
  · obtain ⟨e, hkeep⟩ := exec_of_handler_ok (i := .ldDt x) (s := s) rfl
    exact ⟨_, e, rfl, rfl, toNat_countDown (s.reg x), hkeep⟩
  · obtain ⟨e, hkeep⟩ := exec_of_handler_ok (i := .ldSt x) (s := s) rfl
    exact ⟨_, e, rfl, rfl, toNat_countDown (s.reg x), hkeep⟩

end Sys2Proof.Claims

end

/-! PROOFS, family 60_exceptions. What each host operation answers; then the obligations. -/

section

/-! ## The host operations of a session -/

namespace Sys2Proof.Machine

open Sys2Proof.Config

/-- With a record standing a cycle changes nothing (60_exceptions R334). -/
theorem step_of_fault_ne_none {s : State} (h : s.fault ≠ none) : step s = .next s := by
  simp only [step, if_neg h]

/-! `load_program` on a state, by the length of the image (R361). -/

theorem loadProgram_of_gt {bytes : List Byte} (s : State) (h : bytes.length > progMax) :
    loadProgram bytes s = .fault (.loadFault bytes.length) := if_pos h

theorem loadProgram_of_le {bytes : List Byte} (s : State) (h : bytes.length ≤ progMax) :
    loadProgram bytes s = .next { s with mem := Memory.writeBytes s.mem progBase bytes } := if_neg (Nat.not_lt.2 h)

section
variable {h : Session} {s : State} {bytes : List Byte}

/-! `load_program` in a session: out of phase, too long, or loaded (R361; 92 D26). -/

theorem Session.load_of_outOfPhase (hp : h.loaded = true ∨ h.started = true) :
    h.load bytes s = .refused .loadOutOfPhase := by
  simp only [Session.load, Bool.or_eq_true, if_pos hp]

theorem Session.load_of_gt (hl : h.loaded = false) (hs : h.started = false) (hb : bytes.length > progMax) :
    h.load bytes s = .next (h, .loadFault bytes.length) := by
  simp [Session.load, hl, hs, loadProgram_of_gt s hb]

theorem Session.load_of_le (hl : h.loaded = false) (hs : h.started = false) (hb : bytes.length ≤ progMax) :
    h.load bytes s = .next
      ({ h with machine := some { s with mem := Memory.writeBytes s.mem progBase bytes }, loaded := true }, .ok) := by
  simp [Session.load, hl, hs, loadProgram_of_le s hb]

/-- A load that answers leaves a machine, with the record it had. -/
theorem Session.load_keeps_fault {h' : Session} {reply : Reply} (hm : h.machine = some s)
    (e : h.load bytes s = .next (h', reply)) : ∃ s', h'.machine = some s' ∧ s'.fault = s.fault := by
  by_cases hp : h.loaded = true ∨ h.started = true
  · cases (Session.load_of_outOfPhase hp).symm.trans e
  · obtain ⟨hl, hs⟩ : h.loaded = false ∧ h.started = false := by simpa using hp
    by_cases hb : bytes.length > progMax
    · cases (Session.load_of_gt hl hs hb).symm.trans e
      exact ⟨s, hm, rfl⟩
    · cases (Session.load_of_le hl hs (Nat.not_lt.1 hb)).symm.trans e
      exact ⟨_, rfl, rfl⟩

/-! Each operation by its arm of `Session.apply` (R360, R365). -/

theorem Session.apply_init (h : Session) (seed : Nat) :
    h.apply (.init seed) =
      .next ({ h with machine := some (initialState h.setup seed), loaded := false, started := false }, .none) := rfl

theorem Session.apply_of_no_machine {op : HostOp} (hm : h.machine = none) (hop : ∀ seed, op ≠ .init seed) :
    h.apply op = .refused .beforeInit := by
  cases op with
  | init seed => exact absurd rfl (hop seed)
  | _ => simp only [Session.apply, hm]

theorem Session.apply_loadProgram (hm : h.machine = some s) : h.apply (.loadProgram bytes) = h.load bytes s := by
  simp only [Session.apply, hm]

theorem Session.apply_stepCycle {t : State} (hm : h.machine = some s) (e : step s = .next t) :
    h.apply .stepCycle = .next ({ h with machine := some t, started := true }, cycleReply t) := by
  simp only [Session.apply, hm, Session.cycle, e]

theorem Session.apply_readDisplay (hm : h.machine = some s) : h.apply .readDisplay = .next (h, .display s.disp) := by
  simp only [Session.apply, hm]

theorem Session.apply_readDelayTimer (hm : h.machine = some s) : h.apply .readDelayTimer = .next (h, .timer s.dt) := by
  simp only [Session.apply, hm]

theorem Session.apply_readSoundTimer (hm : h.machine = some s) : h.apply .readSoundTimer = .next (h, .timer s.st) := by
  simp only [Session.apply, hm]

theorem Session.apply_readFault (hm : h.machine = some s) : h.apply .readFault = .next (h, .faultRegister s.fault) := by
  simp only [Session.apply, hm]

theorem Session.apply_writeKeypad {keys : Vector Bool 16} (hm : h.machine = some s) :
    h.apply (.writeKeypad keys) = .next ({ h with machine := some (writeKeypad keys s) }, .none) := by
  simp only [Session.apply, hm]

end

end Sys2Proof.Machine

end

section

/-! ## O8: precise, sticky faults -/

namespace Sys2Proof.Machine

open Sys2Proof.Claims

section
variable {s t : State} {r : FaultRecord}

/-- No handler that completes writes the record: not even that of an instruction which may fault. -/
theorem handler_keeps_fault {i : Instr} (h : handler i s = .ok t) : t.fault = s.fault := by
  cases i with
  | ret =>
    obtain ⟨_, rfl⟩ := State.popPc_ok h
    rfl
  | call =>
    obtain ⟨u, hu, rfl⟩ := handler_call_ok h
    obtain ⟨_, rfl⟩ := State.push_ok hu
    rfl
  | drw =>
    obtain ⟨d, b, rfl⟩ := State.drawSprite_ok h
    rfl
  | skp | sknp =>
    obtain ⟨-, rfl⟩ := ite_error_ok_iff.1 h
    exact State.skipIf_fault s _
  | ldF =>
    obtain ⟨-, rfl⟩ := ite_error_ok_iff.1 h
    rfl
  | ldB | ldMemV =>
    obtain rfl := State.storeAtIndex_ok h
    rfl
  | ldVMem =>
    obtain rfl := State.loadFromIndex_ok h
    rfl
  | _ => exact (handler_changesOnly h).keeps .fault (by simp [mayChange])

/-- An instruction that leaves a record where none stood committed that record alone, with its address and its word. -/
theorem exec_commits_only_record {i : Instr} (hs : s.fault = none) (h : exec i s = .next t) (ht : t.fault = some r) :
    t = { s with fault := some r } ∧ r.pc = s.pc ∧ r.opcode = some (encode i) := by
  rcases exec_next_cases h with hok | ⟨raised, -, rfl⟩
  · have hnone : t.fault = none := (handler_keeps_fault hok).trans hs
    cases hnone.symm.trans ht
  · obtain rfl := Option.some.inj ht
    exact ⟨rfl, rfl, rfl⟩

/-- A cycle that leaves a record where none stood: at fetch it has no word, else the decoded instruction's word, which is
the fetched one (O2). -/
theorem step_commits_only_record (hs : s.fault = none) (h : step s = .next t) (ht : t.fault = some r) :
    t = { s with fault := some r } ∧ r.pc = s.pc ∧ r.opcode = s.fetch := by
  rcases step_cases s with ⟨hne, -⟩ | ⟨-, hw, e⟩ | ⟨w, -, hw, -⟩
  · exact absurd hs hne
  · cases e.symm.trans h
    obtain rfl := Option.some.inj ht
    exact ⟨rfl, rfl, hw.symm⟩
  · obtain ⟨u, hu, ⟨rfl, hc⟩ | ⟨rfl, -⟩⟩ := step_fetched_cases hs hw h
    · cases hc.symm.trans ht
    · obtain ⟨htu, hpc, hop⟩ := exec_commits_only_record hs hu ht
      exact ⟨htu, hpc, by rw [hop, (everyWordDecodesAndReencodes w).2, hw]⟩

theorem step_eq_self_of_fault (hs : s.fault ≠ none) (h : step s = .next t) : t = s :=
  Host.Outcome.next.inj (h.symm.trans (step_of_fault_ne_none hs))

end

section
variable {h : Session} {s : State} {r : FaultRecord}

/-- With a record standing, `step_cycle` returns it and leaves the machine as it is. -/
theorem Session.apply_stepCycle_of_fault (hm : h.machine = some s) (hr : s.fault = some r) :
    h.apply .stepCycle = .next ({ h with machine := some s, started := true }, .fault r) := by
  have hne : s.fault ≠ none := by simp [hr]
  rw [Session.apply_stepCycle hm (step_of_fault_ne_none hne)]
  simp only [cycleReply, hr]

/-- The record stands through every operation but `initialize`. -/
theorem Session.apply_keeps_fault {h' : Session} {op : HostOp} {reply : Reply} (hm : h.machine = some s)
    (hr : s.fault = some r) (hop : ∀ seed, op ≠ .init seed) (e : h.apply op = .next (h', reply)) :
    ∃ s', h'.machine = some s' ∧ s'.fault = some r := by
  cases op with
  | init seed => exact absurd rfl (hop seed)
  | loadProgram bytes =>
    obtain ⟨s', hm', hf⟩ := Session.load_keeps_fault hm ((Session.apply_loadProgram hm).symm.trans e)
    exact ⟨s', hm', hf.trans hr⟩
  | stepCycle =>
    cases (Session.apply_stepCycle_of_fault hm hr).symm.trans e
    exact ⟨s, rfl, hr⟩
  | readDisplay | readDelayTimer | readSoundTimer | readFault =>
    simp only [Session.apply, hm] at e
    cases e
    exact ⟨s, hm, hr⟩
  | writeKeypad keys =>
    cases (Session.apply_writeKeypad hm).symm.trans e
    exact ⟨_, rfl, hr⟩

end

/-- Settles O8: a completing handler writes no record, so a cycle that leaves one took the fault entry, which writes
nothing else; with a record standing, only `initialize` of the host's operations writes the fault field. -/
theorem faultsCommitOnlyTheRecord : Obligations.FaultsCommitOnlyTheRecord :=
  ⟨fun _ _ h => ⟨fun hs _ ht => step_commits_only_record hs h ht, fun hs => step_eq_self_of_fault hs h⟩,
    fun h _ _ hm hr =>
      ⟨fun _ _ _ hop e => Session.apply_keeps_fault hm hr hop e,
        ⟨_, Session.apply_stepCycle_of_fault hm hr, rfl⟩,
        fun seed => ⟨_, _, Session.apply_init h seed, rfl, rfl⟩⟩⟩

end Sys2Proof.Machine

end

section

/-! ## O19: load_program -/

namespace Sys2Proof.Claims

open Sys2Proof Sys2Proof.Machine Sys2Proof.Config

theorem KeepsAllBut.setMem (s : State) (m : Memory) : KeepsAllBut [.memory] s { s with mem := m } :=
  (ChangesOnly.of_part (w := fun _ => False) (q := .memory) (.head _)).keeps

/-- Settles O19: the three answers of a load; a loaded image is one run of writes that ends inside memory. -/
theorem loadProgramFillsFromTwoHundred : Obligations.LoadProgramFillsFromTwoHundred := by
  intro h s bytes hm
  rw [Session.apply_loadProgram hm]
  refine ⟨Session.load_of_gt, fun hl hs hb hwf => ?_, Session.load_of_outOfPhase⟩
  refine ⟨_, Session.load_of_le hl hs hb, rfl, fun k hk => ?_, fun a ha => ?_, .setMem s _⟩
  · have hend : progBase + k < memSize := by simp only [progBase, memSize]; omega
    exact Memory.read_writeBytes_inside hwf hk hend
  · exact Memory.read_writeBytes_outside ha

end Sys2Proof.Claims

end

section

/-! ## O20, O21 and O22: the order of the operations, the reads and the keypad -/

namespace Sys2Proof.Claims

open Sys2Proof Sys2Proof.Machine

/-- Settles O20: a cycle always answers a next state (O7), which `step_cycle` puts in the session. -/
theorem hostOperationsKeepTheirOrder : Obligations.HostOperationsKeepTheirOrder := by
  intro h
  refine ⟨fun hm _ => Session.apply_of_no_machine hm, fun seed => ⟨_, Session.apply_init h seed, rfl, rfl, rfl⟩,
    fun s hm => ?_⟩
  obtain ⟨t, e⟩ := everyCycleAnswersANextState s
  exact ⟨t, _, cycleReply t, e, Session.apply_stepCycle hm e, rfl, rfl, rfl⟩

/-- Settles O21: the four reads answer the session they are given. -/
theorem hostReadsChangeNothing : Obligations.HostReadsChangeNothing := fun _ _ hm =>
  ⟨Session.apply_readDisplay hm, Session.apply_readDelayTimer hm, Session.apply_readSoundTimer hm,
    Session.apply_readFault hm, decide_eq_true_iff⟩

theorem KeepsAllBut.setKey (s : State) (keys : Vector Bool 16) : KeepsAllBut [.keys] s { s with key := keys } :=
  (ChangesOnly.of_part (w := fun _ => False) (q := .keys) (.head _)).keeps

/-- Settles O22: the new latch is the written vector. -/
theorem keypadWriteReplacesEveryKey : Obligations.KeypadWriteReplacesEveryKey := fun _ s keys hm =>
  ⟨_, Session.apply_writeKeypad hm, fun _ hk => State.pressed_of_lt hk, rfl, .setKey s keys⟩

end Sys2Proof.Claims

end

section

/-! ## O17: the reset table -/

namespace Sys2Proof.Machine

open Sys2Proof.Config

/-- Every cell outside the font is initially 0 (10_state R49). -/
theorem Memory.initial_outside_font {a : Nat} (h : a < 0x50 ∨ 0xA0 ≤ a) : Memory.initial a = 0 := by
  have hr : ¬(fontBase ≤ a ∧ a < fontEnd) := by simp only [fontBase, fontEnd]; omega
  simp only [Memory.initial, dif_neg hr]

section
variable {c : Setup} {seed : Nat}

/-- The font is copied in from 0x50 on (20_memory R75). -/
theorem initialState_read_font {k : Nat} (h : k < 80) :
    Memory.read (initialState c seed).mem (0x50 + k) = c.font[k] := by
  have hl : k < c.font.toList.length := by simpa using h
  have hend : fontBase + k < memSize := by simp only [fontBase, memSize]; omega
  exact Memory.read_writeBytes_inside Memory.wf_reset hl hend

/-- The copied font ends below 0xA0, so every other address reads its initial content. -/
theorem initialState_read_outside_font {a : Nat} (h : a < 0x50 ∨ 0xA0 ≤ a) :
    Memory.read (initialState c seed).mem a = 0 := by
  have hout : a < fontBase ∨ fontBase + c.font.toList.length ≤ a := by simpa [fontBase] using h
  exact (Memory.read_writeBytes_outside hout).trans (Memory.initial_outside_font h)

theorem initialState_reg (r : Nibble) : (initialState c seed).reg r = 0 :=
  Vector.getElem_replicate r.isLt

theorem initialState_stack {k : Nat} (h : k < 16) : (initialState c seed).stack[k] = 0 :=
  Vector.getElem_replicate h

theorem initialState_pressed (k : Nat) : (initialState c seed).pressed k = false := by
  by_cases h : k < 16
  · exact (State.pressed_of_lt h).trans (Vector.getElem_replicate h)
  · exact dif_neg h

end

/-- Settles O17: the font is one run of writes into empty memory; every other field is the one reset has, or is taken from
the setup. -/
theorem initializeGivesTheResetTable : Obligations.InitializeGivesTheResetTable :=
  ⟨fun _ _ => ⟨fun _ h => initialState_read_font h, fun _ h => initialState_read_outside_font h, initialState_reg, rfl,
    rfl, fun _ h => initialState_stack h, rfl, rfl, rfl, initialState_pressed, Frame.lit_blank, rfl, rfl⟩, rfl⟩

end Sys2Proof.Machine

end
